-- ==== Sys2Proof/Word.lean ====
section
/-! DEFINITION. The two bit-vector types of the core: the 8-bit memory cell (10_state.md R32) and the
3-bit flags register (10_state.md R26). Register values and the pc are integers (00_scope.md R9, 10_state.md R25). -/

namespace Sys2Proof

/-- One memory cell, one instruction byte: bits 7 down to 0 (00_scope.md R7). -/
abbrev Byte := BitVec 8

/-- The flags register FL: bit 0 Equal, bit 1 Greater, bit 2 Less (10_state.md R26). -/
abbrev FlagBits := BitVec 3

/-- `zext_8`: a byte's value as a non-negative integer (00_scope.md R8). -/
def zext8 (b : Byte) : Int := (b.toNat : Int)

end Sys2Proof
end

