-- ==== Sys2Proof/Machine/Arith.lean ====
section
/-! DEFINITION. Integer arithmetic of the rules (00_scope.md R9, R10). -/

namespace Sys2Proof.Machine

/-- `mask(v) = v mod 256`, the non-negative remainder (00_scope.md R9). -/
def mask (v : Int) : Int := v % 256

/-- ⌊p / q⌋ (00_scope.md R10). -/
def floordiv (p q : Int) : Int := Int.fdiv p q

/-- p - q * floordiv(p, q), with the sign of q (00_scope.md R10). -/
def floormod (p q : Int) : Int := p - q * floordiv p q

/-- p / q rounded toward zero (00_scope.md R10). -/
def truncdiv (p q : Int) : Int := Int.tdiv p q

/-- `~p = -p - 1` (00_scope.md R10). -/
def bitNot (p : Int) : Int := -p - 1

/-- The bits of m that n has not, for naturals. -/
def natDiff (m n : Nat) : Nat := m ^^^ (m &&& n)

/-- `p & q` on two's-complement integers of unbounded width (00_scope.md R10). -/
def bitAnd : Int → Int → Int
  | .ofNat m, .ofNat n => .ofNat (m &&& n)
  | .ofNat m, .negSucc n => .ofNat (natDiff m n)
  | .negSucc m, .ofNat n => .ofNat (natDiff n m)
  | .negSucc m, .negSucc n => .negSucc (m ||| n)

/-- `p | q` on two's-complement integers of unbounded width (00_scope.md R10). -/
def bitOr : Int → Int → Int
  | .ofNat m, .ofNat n => .ofNat (m ||| n)
  | .ofNat m, .negSucc n => .negSucc (natDiff n m)
  | .negSucc m, .ofNat n => .negSucc (natDiff m n)
  | .negSucc m, .negSucc n => .negSucc (m &&& n)

/-- `p ^ q` on two's-complement integers of unbounded width (00_scope.md R10). -/
def bitXor : Int → Int → Int
  | .ofNat m, .ofNat n => .ofNat (m ^^^ n)
  | .ofNat m, .negSucc n => .negSucc (m ^^^ n)
  | .negSucc m, .ofNat n => .negSucc (m ^^^ n)
  | .negSucc m, .negSucc n => .ofNat (m ^^^ n)

/-- `p << n = p * 2^n` (00_scope.md R10). -/
def shiftLeft (p : Int) (n : Nat) : Int := p * 2 ^ n

/-- `p >> n = floordiv(p, 2^n)` (00_scope.md R10). -/
def shiftRight (p : Int) (n : Nat) : Int := floordiv p (2 ^ n)

end Sys2Proof.Machine
end

