-- ==== Sys2Proof/Config.lean ====
section
/-! DEFINITION. The parameters of the core (00_scope.md R6): the open ones as data (`Params`), the fixed ones as
constants. Their values at reset stand in Sys2Proof/Machine/Params.lean. -/

namespace Sys2Proof

/-- MASK_MODE (00_scope.md R6, D1): FIXED masks the results of NOT and MOD, COMPAT keeps them as integers. -/
inductive MaskMode where
  | fixed
  | compat
  deriving DecidableEq, Repr

/-- DIV_MODE (00_scope.md R6, D2): how DIV rounds, or that every DIV stops the run. -/
inductive DivMode where
  | floor
  | trunc
  | abort
  deriving DecidableEq, Repr

/-- The nineteen mnemonics (30_encoding.md R75), in the table's order. -/
inductive Mnemonic where
  | hlt | ret | push | pop | prn | call | not | ldi
  | add | sub | mul | div | mod | cmp | and | or | xor | shl | shr
  deriving DecidableEq, Repr

/-- The four instruction formats (30_encoding.md R71): no operand, one register, two registers, register and
immediate. -/
inductive Format where
  | n | r | rr | ri
  deriving DecidableEq, Repr

/-- The part of the OPCODE map that the source leaves open (30_encoding.md R75, D14): one byte for each of the
sixteen mnemonics whose value is general knowledge. LDI, PRN and HLT are fixed by the source and are no field. The
map is injective where `OpcodeMap.Valid` says so, which the invariant of a run (`State.Inv`) requires. -/
structure OpcodeMap where
  ret : Byte
  push : Byte
  pop : Byte
  call : Byte
  not : Byte
  add : Byte
  sub : Byte
  mul : Byte
  div : Byte
  mod : Byte
  cmp : Byte
  and : Byte
  or : Byte
  xor : Byte
  shl : Byte
  shr : Byte
  deriving DecidableEq, Repr

/-- The parameters a step reads (10_state.md R20: "MASK_MODE, DIV_MODE, SP_INIT and the OPCODE map are parameters of
the step"). SP_INIT is read by reset alone and is an argument there. -/
structure Params where
  maskMode : MaskMode
  divMode : DivMode
  opcodes : OpcodeMap
  deriving DecidableEq, Repr

/-- MEM_SIZE: 256 cells (00_scope.md R6). -/
def memSize : Nat := 256

/-- IMAGE_MAX: the longest image the load port accepts (00_scope.md R6, D19). -/
def imageMax : Nat := 256

end Sys2Proof
end

