-- ==== Sys2Proof/Syntax.lean ====
section
/-! DEFINITION. The instructions (30_encoding.md R71, R75): one constructor for each row of spec/opcode_table.json.
A register operand is kept as the raw byte the handler receives (41_handlers.md R140): that a byte above 7 names no
register is found by the executing instruction, after decoding (30_encoding.md R72, 60_exceptions.md R204). -/

namespace Sys2Proof

/-- An instruction with its operand bytes; `a` is byte 1, `b` or `imm` is byte 2 (30_encoding.md R71). -/
inductive Instr where
  | hlt
  | ret
  | push (a : Byte)
  | pop (a : Byte)
  | prn (a : Byte)
  | call (a : Byte)
  | not (a : Byte)
  | ldi (a imm : Byte)
  | add (a b : Byte)
  | sub (a b : Byte)
  | mul (a b : Byte)
  | div (a b : Byte)
  | mod (a b : Byte)
  | cmp (a b : Byte)
  | and (a b : Byte)
  | or (a b : Byte)
  | xor (a b : Byte)
  | shl (a b : Byte)
  | shr (a b : Byte)
  deriving DecidableEq, Repr

end Sys2Proof
end

