-- ==== Sys2Proof/WellFormed.lean ====
section
/-! DEFINITION. Well-formed instructions: every byte used as a register index is 0..7 (30_encoding.md R72). An ignored
byte and LDI's immediate are never checked (R72, R73). -/

namespace Sys2Proof

/-- The byte names one of the registers x[0]..x[7] (30_encoding.md R72). -/
def namesRegister (r : Byte) : Bool := decide (r.toNat < 8)

/-- Every register operand of the instruction names a register. -/
def Instr.wf : Instr → Bool
  | .hlt => true
  | .ret => true
  | .push a => namesRegister a
  | .pop a => namesRegister a
  | .prn a => namesRegister a
  | .call a => namesRegister a
  | .not a => namesRegister a
  | .ldi a _ => namesRegister a
  | .add a b => namesRegister a && namesRegister b
  | .sub a b => namesRegister a && namesRegister b
  | .mul a b => namesRegister a && namesRegister b
  | .div a b => namesRegister a && namesRegister b
  | .mod a b => namesRegister a && namesRegister b
  | .cmp a b => namesRegister a && namesRegister b
  | .and a b => namesRegister a && namesRegister b
  | .or a b => namesRegister a && namesRegister b
  | .xor a b => namesRegister a && namesRegister b
  | .shl a b => namesRegister a && namesRegister b
  | .shr a b => namesRegister a && namesRegister b

end Sys2Proof
end

