-- ==== Sys2Proof/Decode.lean ====
section
/-! DEFINITION. The dispatcher's decoding (30_encoding.md R70 to R80) and the encoder written from the same tables.
Decoding is by the whole opcode byte (R74), through the OPCODE map, a parameter (R75, D14). -/

namespace Sys2Proof

/-- The nineteen mnemonics, in the order of the table of 30_encoding.md R75. -/
def Mnemonic.all : List Mnemonic :=
  [.hlt, .ret, .push, .pop, .prn, .call, .not, .ldi, .add, .sub, .mul, .div, .mod, .cmp, .and, .or, .xor, .shl, .shr]

/-- OPCODE(m) (30_encoding.md R75): HLT, PRN and LDI have the source's bytes, the others the parameter's. -/
def OpcodeMap.byte (m : OpcodeMap) : Mnemonic → Byte
  | .hlt => 0x01
  | .prn => 0x47
  | .ldi => 0x82
  | .ret => m.ret
  | .push => m.push
  | .pop => m.pop
  | .call => m.call
  | .not => m.not
  | .add => m.add
  | .sub => m.sub
  | .mul => m.mul
  | .div => m.div
  | .mod => m.mod
  | .cmp => m.cmp
  | .and => m.and
  | .or => m.or
  | .xor => m.xor
  | .shl => m.shl
  | .shr => m.shr

/-- The default OPCODE map (30_encoding.md R75). PRESUMED (log entry 3): the spec takes these sixteen bytes from the
LS-8 architecture, not from its source. -/
def OpcodeMap.ls8 : OpcodeMap where
  ret := 0x11
  push := 0x45
  pop := 0x46
  call := 0x50
  not := 0x69
  add := 0xA0
  sub := 0xA1
  mul := 0xA2
  div := 0xA3
  mod := 0xA4
  cmp := 0xA7
  and := 0xA8
  or := 0xAA
  xor := 0xAB
  shl := 0xAC
  shr := 0xAD

/-- The OPCODE map is injective (30_encoding.md R75: "an injective map from the nineteen mnemonics to bytes"). -/
abbrev OpcodeMap.Valid (m : OpcodeMap) : Prop := (Mnemonic.all.map m.byte).Nodup

/-- The format of an instruction (30_encoding.md R71, R75). -/
def Mnemonic.format : Mnemonic → Format
  | .hlt | .ret => .n
  | .push | .pop | .prn | .call | .not => .r
  | .ldi => .ri
  | .add | .sub | .mul | .div | .mod | .cmp | .and | .or | .xor | .shl | .shr => .rr

/-- The width of an instruction, the bytes it occupies (30_encoding.md R77). -/
def Mnemonic.width : Mnemonic → Nat
  | .hlt | .ret => 1
  | .push | .pop | .prn | .call | .not => 2
  | .ldi | .add | .sub | .mul | .div | .mod | .cmp | .and | .or | .xor | .shl | .shr => 3

/-- Why a byte sequence is no instruction. -/
inductive DecodeError where
  /-- The first byte is the OPCODE of no instruction (30_encoding.md R76). -/
  | unknownOpcode (op : Byte)
  /-- Fewer than the three bytes every fetch reads (30_encoding.md R70); a step never meets it. -/
  | truncated
  deriving DecidableEq, Repr

/-- The instruction with this opcode byte, if any (30_encoding.md R74). -/
def OpcodeMap.lookup (m : OpcodeMap) (op : Byte) : Option Mnemonic :=
  Mnemonic.all.find? fun n => m.byte n == op

/-- The instruction of a mnemonic with the two bytes after the opcode; the bytes beyond its format are ignored
(30_encoding.md R71, R80). -/
def Instr.ofBytes : Mnemonic → Byte → Byte → Instr
  | .hlt, _, _ => .hlt
  | .ret, _, _ => .ret
  | .push, a, _ => .push a
  | .pop, a, _ => .pop a
  | .prn, a, _ => .prn a
  | .call, a, _ => .call a
  | .not, a, _ => .not a
  | .ldi, a, imm => .ldi a imm
  | .add, a, b => .add a b
  | .sub, a, b => .sub a b
  | .mul, a, b => .mul a b
  | .div, a, b => .div a b
  | .mod, a, b => .mod a b
  | .cmp, a, b => .cmp a b
  | .and, a, b => .and a b
  | .or, a, b => .or a b
  | .xor, a, b => .xor a b
  | .shl, a, b => .shl a b
  | .shr, a, b => .shr a b

/-- Decoding the three fetched bytes (42_execution_loop.md R172, R173; 30_encoding.md R74, R76). -/
def decode (m : OpcodeMap) (op a b : Byte) : Except DecodeError Instr :=
  match m.lookup op with
  | some n => .ok (Instr.ofBytes n a b)
  | none => .error (.unknownOpcode op)

/-- Decoding the instruction at the head of a byte sequence. -/
def decodeBytes (m : OpcodeMap) : List Byte → Except DecodeError Instr
  | op :: a :: b :: _ => decode m op a b
  | _ => .error .truncated

/-- The row of the opcode table an instruction belongs to. -/
def Instr.mnemonic : Instr → Mnemonic
  | .hlt => .hlt
  | .ret => .ret
  | .push _ => .push
  | .pop _ => .pop
  | .prn _ => .prn
  | .call _ => .call
  | .not _ => .not
  | .ldi _ _ => .ldi
  | .add _ _ => .add
  | .sub _ _ => .sub
  | .mul _ _ => .mul
  | .div _ _ => .div
  | .mod _ _ => .mod
  | .cmp _ _ => .cmp
  | .and _ _ => .and
  | .or _ _ => .or
  | .xor _ _ => .xor
  | .shl _ _ => .shl
  | .shr _ _ => .shr

/-- The operand bytes an instruction occupies, in memory order (30_encoding.md R71). -/
def Instr.operands : Instr → List Byte
  | .hlt => []
  | .ret => []
  | .push a => [a]
  | .pop a => [a]
  | .prn a => [a]
  | .call a => [a]
  | .not a => [a]
  | .ldi a imm => [a, imm]
  | .add a b => [a, b]
  | .sub a b => [a, b]
  | .mul a b => [a, b]
  | .div a b => [a, b]
  | .mod a b => [a, b]
  | .cmp a b => [a, b]
  | .and a b => [a, b]
  | .or a b => [a, b]
  | .xor a b => [a, b]
  | .shl a b => [a, b]
  | .shr a b => [a, b]

/-- The width of an instruction (30_encoding.md R77). -/
def Instr.width (i : Instr) : Nat := i.mnemonic.width

/-- The bytes of an instruction: its opcode, then its operands (30_encoding.md R71). -/
def encode (m : OpcodeMap) (i : Instr) : List Byte := m.byte i.mnemonic :: i.operands

/-- The three bytes of a table word: byte k is bits 8k+7 down to 8k, and bits from `nbits` up are 0. -/
def tableBytes (nbits w : Nat) : List Byte :=
  let v := w % 2 ^ nbits
  [BitVec.ofNat 8 v, BitVec.ofNat 8 (v / 256), BitVec.ofNat 8 (v / 65536)]

/-- The instruction read from an opcode-table word, under the default OPCODE map. -/
def decodeTableWord (nbits w : Nat) : Option Instr :=
  match decodeBytes OpcodeMap.ls8 (tableBytes nbits w) with
  | .ok i => some i
  | .error _ => none

end Sys2Proof
end

