-- ==== Sys2Proof/Machine/Params.lean ====
section
/-! DEFINITION. The values of the parameters and of memory at reset (00_scope.md R6, 10_state.md R34). -/

namespace Sys2Proof.Machine

/-- The open parameters as reset has them. DESIGN CHOICE (log entry 2): 00_scope.md R6 leaves MASK_MODE and DIV_MODE
open; FIXED, FLOOR and the default OPCODE map are the values 95_test_vectors.md assumes unless a vector says otherwise. -/
def resetParams : Params := { maskMode := .fixed, divMode := .floor, opcodes := OpcodeMap.ls8 }

/-- SP_INIT: the value of x[7] at reset (00_scope.md R6, 10_state.md R34, D18). -/
def spInit : Int := 0

/-- MEM7_INIT: memory cell 7 at reset (00_scope.md R6, 10_state.md R34). -/
def mem7Init : Byte := 0xF4

/-- What a cell holds at reset, and so what an unlisted address reads as (10_state.md R34). -/
def resetByte (addr : Nat) : Byte := if addr = 7 then mem7Init else 0x00

end Sys2Proof.Machine
end

