-- ==== Sys2Proof/Machine/State.lean ====
section
/-! DEFINITION. The state of the core (10_state.md R20): Mem, X, pc, FL, run and out, and the model's own field `params`
that carries the parameters of the step (log entry 1). -/

namespace Sys2Proof.Machine

/-- The kinds of fatal stop that end a run in Aborted (60_exceptions.md R201, codes 2 to 8). -/
inductive AbortKind where
  /-- ALU_UNSUPPORTED: no instruction raises it (40_alu.md R113, D26). -/
  | aluUnsupported
  /-- DIVIDE_BY_ZERO: DIV and MOD with a zero divisor (40_alu.md R104, R105). -/
  | divideByZero
  /-- DIV_UNDEFINED: DIV when DIV_MODE = ABORT (40_alu.md R104). -/
  | divUndefined
  /-- ADDRESS_OUT_OF_RANGE: a memory address outside 0..255 (20_memory.md R51, 42_execution_loop.md R171). -/
  | addressOutOfRange
  /-- BAD_REGISTER: a register operand byte of 8..255 (30_encoding.md R72). -/
  | badRegister
  /-- NEGATIVE_SHIFT: SHL and SHR with a negative count (40_alu.md R110, R111). -/
  | negativeShift
  /-- CELL_RANGE: a store of a value outside 0..255 (20_memory.md R63, 41_handlers.md R144). -/
  | cellRange
  deriving DecidableEq, Repr

/-- The run state (10_state.md R28). `addr` is the address of the opcode byte of the stopping instruction
(60_exceptions.md R202). -/
inductive RunState where
  | running
  | halted
  | faulted (op : Byte) (addr : Int)
  | aborted (kind : AbortKind) (addr : Int)
  deriving DecidableEq, Repr

/-- Memory: (address, byte) pairs in canonical form (`Memory.wf`), an unlisted address reading as its reset value
(10_state.md R32, R34). -/
abbrev Memory := List Host.Cell

/-- The state vector (10_state.md R20). Register values and the pc are integers (R23, R25). -/
structure State where
  /-- Mem, the 256 cells (10_state.md R32). -/
  mem : Memory
  /-- X, the registers x[0]..x[7]; x[7] is also SP (10_state.md R21, R24). -/
  x : Vector Int 8
  /-- The program counter (10_state.md R25). -/
  pc : Int
  /-- FL (10_state.md R26). -/
  fl : FlagBits
  /-- The run state (10_state.md R28). -/
  run : RunState
  /-- The output stream, oldest value first (10_state.md R29). -/
  out : List Int
  /-- The parameters of the step: the model's own field, constant along a run (log entry 1). -/
  params : Params
  deriving DecidableEq, Repr

/-- Why a step has no next state. -/
inductive Fault where
  /-- Raised by `step` alone, in a state whose run is Halted, Faulted or Aborted: "No step is defined in them"
  (42_execution_loop.md R174). Safe: the model stops where the core has stopped. -/
  | terminal (run : RunState)
  deriving DecidableEq, Repr

/-- Why an instruction has no meaning in the model. -/
inductive Refusal where
  /-- Raised by an arm of `exec` that has no meaning yet; no arm does. Safe: nothing is claimed of the instruction. -/
  | notModelled (mnemonic : String)
  deriving DecidableEq, Repr

/-- The outcomes of a step of this machine. -/
abbrev Outcome := Host.Outcome State Fault Refusal

/-- Reset with given parameters and a given SP_INIT (10_state.md R34, 70_reset_and_hazards.md R220): nothing is loaded. -/
def State.resetWith (p : Params) (sp : Int) : State where
  mem := []
  x := #v[0, 0, 0, 0, 0, 0, 0, sp]
  pc := 0
  fl := 0
  run := .running
  out := []
  params := p

/-- The machine right after reset (10_state.md R34). -/
def State.reset : State := State.resetWith resetParams spInit

end Sys2Proof.Machine
end

