-- ==== Sys2Proof/Machine/Ops.lean ====
section
/-! DEFINITION. The named operations on memory, registers and the run state, and stopping a run. The core has no trap
mechanism (60_exceptions.md R200): the one exceptional move is the stop, and nothing returns from it (R206). -/

namespace Sys2Proof.Machine

/-! ## Memory -/

/-- The cell at an address: the listed byte, or the reset value. -/
def Memory.read : Memory → Nat → Byte
  | [], addr => resetByte addr
  | (k, v) :: rest, addr => if k = addr then v else Memory.read rest addr

/-- The list with `addr` holding `v` in front of cells above it; nothing is listed for a reset value. -/
def Memory.cons (addr : Nat) (v : Byte) (rest : Memory) : Memory :=
  if v = resetByte addr then rest else (addr, v) :: rest

/-- One cell replaced, canonical form kept. -/
def Memory.write : Memory → Nat → Byte → Memory
  | [], addr, v => Memory.cons addr v []
  | (k, w) :: rest, addr, v =>
    if k < addr then (k, w) :: Memory.write rest addr v
    else if k = addr then Memory.cons addr v rest
    else Memory.cons addr v ((k, w) :: rest)

/-- The canonical form: addresses strictly rising and below 256, no cell listed with its reset value. -/
abbrev Memory.wf (m : Memory) : Prop :=
  m.Pairwise (fun c d => c.1 < d.1) ∧ ∀ c ∈ m, c.1 < memSize ∧ c.2 ≠ resetByte c.1

/-- MemRead(addr, 1) (20_memory.md R51). -/
def memRead (m : Memory) (addr : Int) : Except AbortKind Byte :=
  if addr < 0 ∨ 255 < addr then .error .addressOutOfRange else .ok (Memory.read m addr.toNat)

/-- MemWrite(addr, 1, v) (20_memory.md R51): the address is checked before the value. -/
def memWrite (m : Memory) (addr v : Int) : Except AbortKind Memory :=
  if addr < 0 ∨ 255 < addr then .error .addressOutOfRange
  else if v < 0 ∨ 255 < v then .error .cellRange
  else .ok (Memory.write m addr.toNat (BitVec.ofInt 8 v))

/-! ## Registers, pc, flags, output -/

/-- The index of SP in the register file (10_state.md R24). -/
def spIndex : Fin 8 := 7

/-- x[r] (00_scope.md R8). -/
def State.reg (s : State) (r : Fin 8) : Int := s.x[r]

/-- x[r] <- v (00_scope.md R8). -/
def State.setReg (s : State) (r : Fin 8) (v : Int) : State := { s with x := s.x.set r v }

/-- pc <- target (00_scope.md R8). -/
def State.setPc (s : State) (target : Int) : State := { s with pc := target }

/-- pc <- pc + width, not reduced (10_state.md R25). -/
def State.advance (s : State) (width : Int) : State := s.setPc (s.pc + width)

/-- FL <- v (00_scope.md R8). -/
def State.setFl (s : State) (v : FlagBits) : State := { s with fl := v }

/-- The state with another memory. -/
def State.setMem (s : State) (m : Memory) : State := { s with mem := m }

/-- emit(v): v is appended to the output stream (00_scope.md R8, 10_state.md R29). -/
def State.emit (s : State) (v : Int) : State := { s with out := s.out ++ [v] }

/-- The state with another run state. -/
def State.setRun (s : State) (r : RunState) : State := { s with run := r }

/-! ## Stopping -/

/-- A fatal stop: run <- Aborted(kind, pc), everything else as before the instruction (42_execution_loop.md R176). -/
def State.abort (s : State) (kind : AbortKind) : State := s.setRun (.aborted kind s.pc)

/-- An unknown opcode: run <- Faulted(op, pc), everything else as before (42_execution_loop.md R173). -/
def State.faultOn (s : State) (op : Byte) : State := s.setRun (.faulted op s.pc)

/-- The outcome of an instruction rule begun in `s`: its last state, or the precise stop it raised
(42_execution_loop.md R176, 60_exceptions.md R203). -/
def State.finish (s : State) : Except AbortKind State → Outcome
  | .ok t => .next t
  | .error kind => .next (s.abort kind)

/-- The numeric code of a fatal stop (60_exceptions.md R201). -/
def AbortKind.code : AbortKind → Nat
  | .aluUnsupported => 2
  | .divideByZero => 3
  | .divUndefined => 4
  | .addressOutOfRange => 5
  | .badRegister => 6
  | .negativeShift => 7
  | .cellRange => 8

/-- The numeric code of the stop that ended a run: 0 HALTED, 1 UNKNOWN_OPCODE, 2..8 a fatal stop; none while Running
(60_exceptions.md R201). -/
def RunState.code : RunState → Option Nat
  | .running => none
  | .halted => some 0
  | .faulted _ _ => some 1
  | .aborted kind _ => some kind.code

end Sys2Proof.Machine
end

