-- ==== Sys2Proof/Machine/Flags.lean ====
section
/-! DEFINITION. The flags register: its bits and the comparison that writes them (10_state.md R26, 40_alu.md R112). -/

namespace Sys2Proof.Machine

/-- Bit 0, Equal (10_state.md R26). -/
def State.equalFlag (s : State) : Bool := s.fl.getLsbD 0

/-- Bit 1, Greater (10_state.md R26). -/
def State.greaterFlag (s : State) : Bool := s.fl.getLsbD 1

/-- Bit 2, Less (10_state.md R26). -/
def State.lessFlag (s : State) : Bool := s.fl.getLsbD 2

/-- FL after CMP: the three tests of 40_alu.md R112 in its order, each overwriting FL; exactly one of them holds. -/
def compareFlags (va vb : Int) (fl : FlagBits) : FlagBits :=
  let fl := if va = vb then 0b001 else fl
  let fl := if va > vb then 0b010 else fl
  if va < vb then 0b100 else fl

end Sys2Proof.Machine
end

