-- ==== Sys2Proof/Machine/Operands.lean ====
section
/-! DEFINITION. The operand forms (30_encoding.md R71, R72) and the shape the two-register ALU instructions share
(40_alu.md R100). -/

namespace Sys2Proof.Machine

/-- `reg(i)`: the register a byte names, or the stop BAD_REGISTER (00_scope.md R12, 30_encoding.md R72). -/
def reg (r : Byte) : Except AbortKind (Fin 8) :=
  if h : r.toNat < 8 then .ok ⟨r.toNat, h⟩ else .error .badRegister

/-- The byte that names a register. -/
def regByte (r : Fin 8) : Byte := BitVec.ofNat 8 r.val

/-- An instruction of format R or RI: the register operand is checked, then the rule runs. -/
def ruleR (a : Byte) (s : State) (body : Fin 8 → Except AbortKind State) : Outcome :=
  s.finish (do body (← reg a))

/-- An instruction of format RR: `reg(a)`, then `reg(b)`, then the rule (60_exceptions.md R204). -/
def ruleRR (a b : Byte) (s : State) (body : Fin 8 → Fin 8 → Except AbortKind State) : Outcome :=
  s.finish (do
    let ra ← reg a
    let rb ← reg b
    body ra rb)

/-- A two-register ALU instruction that writes x[a]: both values are read, the result is computed or a stop raised, x[a]
is written and pc moves by 3 (40_alu.md R100). -/
def aluRR (op : Int → Int → Except AbortKind Int) (a b : Byte) (s : State) : Outcome :=
  ruleRR a b s fun ra rb => do
    let v ← op (s.reg ra) (s.reg rb)
    return (s.setReg ra v).advance 3

end Sys2Proof.Machine
end

