-- ==== Sys2Proof/Machine/Alu.lean ====
section
/-! DEFINITION. The ALU instructions (40_alu.md R101 to R112): each operation on values, then the instruction. -/

namespace Sys2Proof.Machine

/-! ## Arithmetic -/

/-- ADD on values (40_alu.md R101). -/
def aluAdd (va vb : Int) : Int := mask (va + vb)

/-- SUB on values (40_alu.md R102). -/
def aluSub (va vb : Int) : Int := mask (va - vb)

/-- MUL on values (40_alu.md R103). -/
def aluMul (va vb : Int) : Int := mask (va * vb)

/-- DIV on values (40_alu.md R104): a zero divisor is reported before DIV_MODE = ABORT. -/
def aluDiv (mode : DivMode) (va vb : Int) : Except AbortKind Int :=
  if vb = 0 then .error .divideByZero
  else match mode with
    | .floor => .ok (mask (floordiv va vb))
    | .trunc => .ok (mask (truncdiv va vb))
    | .abort => .error .divUndefined

/-- MOD on values (40_alu.md R105): masked in FIXED only. -/
def aluMod (mode : MaskMode) (va vb : Int) : Except AbortKind Int :=
  if vb = 0 then .error .divideByZero
  else match mode with
    | .fixed => .ok (mask (floormod va vb))
    | .compat => .ok (floormod va vb)

/-! ## Bitwise logic -/

/-- AND on values (40_alu.md R106). -/
def aluAnd (va vb : Int) : Int := mask (bitAnd va vb)

/-- OR on values (40_alu.md R107). -/
def aluOr (va vb : Int) : Int := mask (bitOr va vb)

/-- XOR on values (40_alu.md R108). -/
def aluXor (va vb : Int) : Int := mask (bitXor va vb)

/-- NOT on a value (40_alu.md R109): masked in FIXED only. -/
def aluNot (mode : MaskMode) (va : Int) : Int :=
  match mode with
  | .fixed => mask (bitNot va)
  | .compat => bitNot va

/-! ## Shifts -/

/-- SHL on values (40_alu.md R110): the whole count is used, a negative one stops. -/
def aluShl (va vb : Int) : Except AbortKind Int :=
  if vb < 0 then .error .negativeShift else .ok (mask (shiftLeft va vb.toNat))

/-- SHR on values (40_alu.md R111): the whole count is used, a negative one stops. -/
def aluShr (va vb : Int) : Except AbortKind Int :=
  if vb < 0 then .error .negativeShift else .ok (mask (shiftRight va vb.toNat))

/-! ## The instructions -/

/-- ADD (40_alu.md R101). -/
def execAdd (a b : Byte) (s : State) : Outcome := aluRR (fun va vb => .ok (aluAdd va vb)) a b s

/-- SUB (40_alu.md R102). -/
def execSub (a b : Byte) (s : State) : Outcome := aluRR (fun va vb => .ok (aluSub va vb)) a b s

/-- MUL (40_alu.md R103). -/
def execMul (a b : Byte) (s : State) : Outcome := aluRR (fun va vb => .ok (aluMul va vb)) a b s

/-- DIV (40_alu.md R104). -/
def execDiv (a b : Byte) (s : State) : Outcome := aluRR (aluDiv s.params.divMode) a b s

/-- MOD (40_alu.md R105). -/
def execMod (a b : Byte) (s : State) : Outcome := aluRR (aluMod s.params.maskMode) a b s

/-- AND (40_alu.md R106). -/
def execAnd (a b : Byte) (s : State) : Outcome := aluRR (fun va vb => .ok (aluAnd va vb)) a b s

/-- OR (40_alu.md R107). -/
def execOr (a b : Byte) (s : State) : Outcome := aluRR (fun va vb => .ok (aluOr va vb)) a b s

/-- XOR (40_alu.md R108). -/
def execXor (a b : Byte) (s : State) : Outcome := aluRR (fun va vb => .ok (aluXor va vb)) a b s

/-- NOT (40_alu.md R109): one register, width 2. -/
def execNot (a : Byte) (s : State) : Outcome :=
  ruleR a s fun ra => .ok ((s.setReg ra (aluNot s.params.maskMode (s.reg ra))).advance 2)

/-- SHL (40_alu.md R110). -/
def execShl (a b : Byte) (s : State) : Outcome := aluRR aluShl a b s

/-- SHR (40_alu.md R111). -/
def execShr (a b : Byte) (s : State) : Outcome := aluRR aluShr a b s

/-- CMP (40_alu.md R112): FL is written, no register. -/
def execCmp (a b : Byte) (s : State) : Outcome :=
  ruleRR a b s fun ra rb => .ok ((s.setFl (compareFlags (s.reg ra) (s.reg rb) s.fl)).advance 3)

end Sys2Proof.Machine
end

