-- ==== Sys2Proof/Machine/Handlers.lean ====
section
/-! DEFINITION. The handler instructions (41_handlers.md R141 to R147). Each rule is run in the order of its pseudocode;
a stop keeps none of its writes (00_scope.md R11). -/

namespace Sys2Proof.Machine

/-- SP after a push: mask(SP - 1) (10_state.md R24). -/
def State.pushedSp (s : State) : Int := mask (s.reg spIndex - 1)

/-- The push of one value: SP <- mask(SP - 1), then Mem[SP] <- v (41_handlers.md R144, R146). -/
def State.push (s : State) (v : Int) : Except AbortKind State := do
  let sp := s.pushedSp
  let m ← memWrite s.mem sp v
  return (s.setReg spIndex sp).setMem m

/-- LDI (41_handlers.md R141). -/
def execLdi (a imm : Byte) (s : State) : Outcome :=
  ruleR a s fun ra => .ok ((s.setReg ra (zext8 imm)).advance 3)

/-- PRN (41_handlers.md R142). -/
def execPrn (a : Byte) (s : State) : Outcome :=
  ruleR a s fun ra => .ok ((s.emit (s.reg ra)).advance 2)

/-- HLT (41_handlers.md R143): pc stays at the instruction (D10). -/
def execHlt (s : State) : Outcome := .next (s.setRun .halted)

/-- PUSH (41_handlers.md R144): the operand is read after SP is decremented (D8). -/
def execPush (a : Byte) (s : State) : Outcome :=
  ruleR a s fun ra => do
    let v := (s.setReg spIndex s.pushedSp).reg ra
    let t ← s.push v
    return t.advance 2

/-- POP (41_handlers.md R145): SP is read again after x[a] is written (D8). -/
def execPop (a : Byte) (s : State) : Outcome :=
  ruleR a s fun ra => do
    let v ← memRead s.mem (s.reg spIndex)
    let t := s.setReg ra (zext8 v)
    return (t.setReg spIndex (mask (t.reg spIndex + 1))).advance 2

/-- CALL (41_handlers.md R146): pc + 2 is pushed and the target is read after SP is decremented (D8). -/
def execCall (a : Byte) (s : State) : Outcome :=
  ruleR a s fun ra => do
    let t ← s.push (s.pc + 2)
    return t.setPc (t.reg ra)

/-- RET (41_handlers.md R147). -/
def execRet (s : State) : Outcome :=
  s.finish (do
    let sp := s.reg spIndex
    let target ← memRead s.mem sp
    return (s.setPc (zext8 target)).setReg spIndex (mask (sp + 1)))

end Sys2Proof.Machine
end

