-- ==== Sys2Proof/Machine/Fetch.lean ====
section
/-! DEFINITION. Fetch and decode (42_execution_loop.md R170 to R173), everything of a step that comes before the
instruction's own rule. -/

namespace Sys2Proof.Machine

/-- What fetching ends in. -/
inductive FetchResult where
  /-- An instruction to execute. -/
  | instr (i : Instr)
  /-- The step ends here: the fetch was out of range or the opcode unknown. -/
  | stopped (s : State)
  /-- No step is defined (42_execution_loop.md R174). -/
  | stuck (f : Fault)
  deriving DecidableEq, Repr

/-- The three bytes at pc, pc + 1 and pc + 2, read whatever the instruction's width (42_execution_loop.md R171). -/
def fetchBytes (s : State) : Except AbortKind (Byte × Byte × Byte) := do
  let op ← memRead s.mem s.pc
  let a ← memRead s.mem (s.pc + 1)
  let b ← memRead s.mem (s.pc + 2)
  return (op, a, b)

/-- Fetch and decode in a running core: fetch bounds are checked before the opcode (60_exceptions.md R204). -/
def fetchRunning (s : State) : FetchResult :=
  match fetchBytes s with
  | .error kind => .stopped (s.abort kind)
  | .ok (op, a, b) =>
    match decode s.params.opcodes op a b with
    | .error _ => .stopped (s.faultOn op)
    | .ok i => .instr i

/-- Fetch and decode: only a running core fetches (42_execution_loop.md R170, R174). -/
def fetch (s : State) : FetchResult :=
  match s.run with
  | .running => fetchRunning s
  | r => .stuck (.terminal r)

/-- The bytes stored from an address up, as far as the address space reaches. -/
def storeBytes (m : Memory) (addr : Nat) : List Byte → Memory
  | [] => m
  | b :: rest => storeBytes (if addr < memSize then Memory.write m addr b else m) (addr + 1) rest

/-- The state with these bytes stored where the next fetch reads; where the next fetch is out of range (R171) nothing
is stored. -/
def State.storeAtFetch (s : State) (bytes : List Byte) : State :=
  if s.pc < 0 ∨ 253 < s.pc then s else s.setMem (storeBytes s.mem s.pc.toNat bytes)

end Sys2Proof.Machine
end

