-- ==== Sys2Proof/Machine/Step.lean ====
section
/-! DEFINITION. One step of the core (42_execution_loop.md R170). -/

namespace Sys2Proof.Machine

/-- Fetch, decode and execute one instruction, or stop (42_execution_loop.md R170). -/
def step (s : State) : Host.Outcome State Fault Refusal :=
  match fetch s with
  | .instr i => exec i s
  | .stopped t => .next t
  | .stuck f => .fault f

/-- The state with a table word's three bytes stored at pc, where the next fetch reads them. It stands for the load of
a program from outside (70_reset_and_hazards.md R221, log entry 7). -/
def State.withFetchWord (s : State) (nbits w : Nat) : State :=
  s.storeAtFetch (tableBytes nbits w)

end Sys2Proof.Machine
end

