-- ==== Sys2Proof/Machine/Ports.lean ====
section
/-! DEFINITION. The block's ports and the run as the host sees them (42_execution_loop.md R175, R178): load, out, status
and state; and the loop under a step budget. -/

namespace Sys2Proof.Machine

/-- The load port accepts an image of 0..256 bytes, each 0..255 (70_reset_and_hazards.md R221, D19). -/
def imageAccepted (img : List Nat) : Bool := decide (img.length ≤ imageMax) && img.all fun v => decide (v < 256)

/-- The load port: Mem[i] <- img[i] from address 0, all else kept; a refused image begins no run
(70_reset_and_hazards.md R221). DESIGN CHOICE (log entry 13): the port exists only after reset and before the first step
(42_execution_loop.md R178); the function has no guard, and its use in any other state is outside the spec. -/
def State.load (s : State) (img : List Nat) : Option State :=
  if imageAccepted img then some (s.setMem (storeBytes s.mem 0 (img.map (BitVec.ofNat 8)))) else none

/-- The out port: the values emitted so far, in order (42_execution_loop.md R178). -/
def State.outPort (s : State) : List Int := s.out

/-- The status port: the run state, once the run has ended (42_execution_loop.md R175, R178). -/
def State.statusPort (s : State) : Option RunState :=
  match s.run with
  | .running => none
  | r => some r

/-- What the host may inspect after the end of a run (42_execution_loop.md R178). -/
structure FinalState where
  mem : Memory
  x : Vector Int 8
  pc : Int
  fl : FlagBits
  deriving DecidableEq, Repr

/-- The state port: the final Mem, X, pc and FL, once the run has ended (42_execution_loop.md R178). -/
def State.statePort (s : State) : Option FinalState :=
  match s.run with
  | .running => none
  | _ => some { mem := s.mem, x := s.x, pc := s.pc, fl := s.fl }

/-- The execution loop under a step budget: it steps while the core is running; running out of budget is not an end of
the run (42_execution_loop.md R175). -/
def runLoop : Nat → State → State
  | 0, s => s
  | budget + 1, s =>
    match step s with
    | .next t => runLoop budget t
    | .fault _ => s
    | .refused _ => s

end Sys2Proof.Machine
end

