-- ==== Sys2Proof/Machine/ImageText.lean ====
section
/-! DEFINITION. The host-side text of a program image (30_encoding.md R82, R83): one byte a line, a comment from `#` on,
blank and comment-only lines skipped. Text is a list of characters. -/

namespace Sys2Proof.Machine

/-- White space within a line. DESIGN CHOICE (log entry 5): the spec names no white space characters. -/
def isBlank (c : Char) : Bool := c == ' ' || c == '\t' || c == '\r'

/-- The text without white space at either end. -/
def trim (t : List Char) : List Char := ((t.dropWhile isBlank).reverse.dropWhile isBlank).reverse

/-- The pieces of a text between occurrences of a character. -/
def splitOn (c : Char) : List Char → List (List Char)
  | [] => [[]]
  | d :: rest =>
    if d = c then [] :: splitOn c rest
    else match splitOn c rest with
      | [] => [[d]]
      | w :: ws => (d :: w) :: ws

/-- The value of a binary literal read from its most significant digit, `acc` being the value so far
(00_scope.md R7). -/
def binaryValue (acc : Nat) : List Char → Option Nat
  | [] => some acc
  | c :: rest =>
    if c = '0' then binaryValue (2 * acc) rest
    else if c = '1' then binaryValue (2 * acc + 1) rest
    else none

/-- The bytes of one image line: none of a blank or comment-only line, one of a literal of eight binary digits; any
other line is malformed (30_encoding.md R82, D19). -/
def parseImageLine (line : List Char) : Option (List Nat) :=
  match trim (line.takeWhile (· != '#')) with
  | [] => some []
  | lit => if lit.length = 8 then (binaryValue 0 lit).map ([·]) else none

/-- The image of the lines of a text (30_encoding.md R82). -/
def parseImageLines : List (List Char) → Option (List Nat)
  | [] => some []
  | line :: rest => do
    let bytes ← parseImageLine line
    let more ← parseImageLines rest
    return bytes ++ more

/-- The image of a text (30_encoding.md R82). -/
def parseImage (text : List Char) : Option (List Nat) := parseImageLines (splitOn '\n' text)

/-- The effect of loading an image text on the core: a malformed text begins no run (30_encoding.md R82,
70_reset_and_hazards.md R221). Like `State.load`, outside the spec in any state but that of reset (log entry 13). -/
def State.loadText (s : State) (text : List Char) : Option State := (parseImage text).bind s.load

/-- A byte as an image line: eight binary digits, bit 7 first (00_scope.md R7, 30_encoding.md R82). -/
def imageLine (b : Byte) : List Char :=
  [7, 6, 5, 4, 3, 2, 1, 0].map fun k => if b.getLsbD k then '1' else '0'

end Sys2Proof.Machine
end

