-- ==== Sys2Proof/Machine/AsmText.lean ====
section
/-! DEFINITION. The assembler syntax (30_encoding.md R81, D28), host-side: a mnemonic, a space and comma-separated
operands, a register as `R0`..`R7`, an immediate as a decimal number; instructions on one line separated by `;`. -/

namespace Sys2Proof.Machine

/-- The mnemonic's text. -/
def Mnemonic.text : Mnemonic → List Char
  | .hlt => ['H', 'L', 'T']
  | .ret => ['R', 'E', 'T']
  | .push => ['P', 'U', 'S', 'H']
  | .pop => ['P', 'O', 'P']
  | .prn => ['P', 'R', 'N']
  | .call => ['C', 'A', 'L', 'L']
  | .not => ['N', 'O', 'T']
  | .ldi => ['L', 'D', 'I']
  | .add => ['A', 'D', 'D']
  | .sub => ['S', 'U', 'B']
  | .mul => ['M', 'U', 'L']
  | .div => ['D', 'I', 'V']
  | .mod => ['M', 'O', 'D']
  | .cmp => ['C', 'M', 'P']
  | .and => ['A', 'N', 'D']
  | .or => ['O', 'R']
  | .xor => ['X', 'O', 'R']
  | .shl => ['S', 'H', 'L']
  | .shr => ['S', 'H', 'R']

/-- A decimal digit. -/
def digitChar (n : Nat) : Char := Char.ofNat (48 + n % 10)

/-- The decimal text of a byte, without leading zeros. -/
def decimalText (b : Byte) : List Char :=
  let n := b.toNat
  if n < 10 then [digitChar n]
  else if n < 100 then [digitChar (n / 10), digitChar n]
  else [digitChar (n / 100), digitChar (n / 10), digitChar n]

/-- The text of a register operand; it reads as a register only for the bytes 0..7. -/
def registerText (r : Byte) : List Char := 'R' :: decimalText r

/-- The operands' text, in byte order (30_encoding.md R81). -/
def operandsText (f : Format) : List Byte → List (List Char)
  | [a] => [registerText a]
  | [a, b] => [registerText a, match f with | .ri => decimalText b | _ => registerText b]
  | _ => []

/-- Operand texts joined by commas. -/
def joinComma : List (List Char) → List Char
  | [] => []
  | [w] => w
  | w :: ws => w ++ ',' :: joinComma ws

/-- The assembler text of an instruction (30_encoding.md R81). -/
def asmText (i : Instr) : List Char :=
  match operandsText i.mnemonic.format i.operands with
  | [] => Mnemonic.text i.mnemonic
  | ws => Mnemonic.text i.mnemonic ++ ' ' :: joinComma ws

/-- The value of a decimal text, `acc` being the value so far. -/
def decimalValue (acc : Nat) : List Char → Option Nat
  | [] => some acc
  | c :: rest => if 48 ≤ c.toNat ∧ c.toNat ≤ 57 then decimalValue (10 * acc + (c.toNat - 48)) rest else none

/-- An immediate: one or more decimal digits of value 0..255 (30_encoding.md R73, R81). -/
def parseImmediate (t : List Char) : Option Byte :=
  if t = [] then none
  else (decimalValue 0 t).bind fun n => if n < 256 then some (BitVec.ofNat 8 n) else none

/-- A register: `R` and one digit 0..7; `SP` is no register name (30_encoding.md R81, D28). -/
def parseRegister : List Char → Option Byte
  | ['R', d] => if 48 ≤ d.toNat ∧ d.toNat ≤ 55 then some (BitVec.ofNat 8 (d.toNat - 48)) else none
  | _ => none

/-- The operand bytes of a format from the operand texts. -/
def parseOperands : Format → List (List Char) → Option (Byte × Byte)
  | .n, [] => some (0, 0)
  | .r, [a] => do return (← parseRegister a, 0)
  | .rr, [a, b] => do return (← parseRegister a, ← parseRegister b)
  | .ri, [a, imm] => do return (← parseRegister a, ← parseImmediate imm)
  | _, _ => none

/-- One assembler instruction (30_encoding.md R81). DESIGN CHOICE (log entry 6): white space around the instruction and
around each operand is allowed. -/
def parseAsm (t : List Char) : Option Instr := do
  let t := trim t
  let name := t.takeWhile (! isBlank ·)
  let rest := trim (t.dropWhile (! isBlank ·))
  let n ← Mnemonic.all.find? fun n => Mnemonic.text n == name
  let operands := if rest = [] then [] else (splitOn ',' rest).map trim
  let (a, b) ← parseOperands n.format operands
  return Instr.ofBytes n a b

/-- The instructions of assembler texts, in order. -/
def parseAsmAll : List (List Char) → Option (List Instr)
  | [] => some []
  | t :: rest => do
    let i ← parseAsm t
    let more ← parseAsmAll rest
    return i :: more

/-- The instructions of one line, separated by `;` (30_encoding.md R81). -/
def parseAsmLine (line : List Char) : Option (List Instr) := parseAsmAll (splitOn ';' line)

/-- The bytes of instructions laid out one after another (30_encoding.md R71). -/
def assemble (m : OpcodeMap) : List Instr → List Byte
  | [] => []
  | i :: rest => encode m i ++ assemble m rest

end Sys2Proof.Machine
end

