-- ==== Sys2Proof/Safety.lean ====
section
/-! DEFINITION. The terms claims about the core are stated in: legal states, how a run ends, frames, and the tables of
the spec that say which instruction may do what. -/

namespace Sys2Proof.Machine

/-! ## Legal states -/

/-- The values a register may hold in a mode (10_state.md R23). -/
def registerRange (mode : MaskMode) (v : Int) : Prop :=
  match mode with
  | .fixed => 0 ≤ v ∧ v ≤ 255
  | .compat => -256 ≤ v ∧ v ≤ 255

/-- The values FL may hold: 0 before the first CMP, then exactly one of its bits (10_state.md R26). -/
def legalFlags (fl : FlagBits) : Prop := fl = 0b000 ∨ fl = 0b001 ∨ fl = 0b010 ∨ fl = 0b100

/-- The pc a step may leave: a fetch address plus a width, a popped byte, or a register's value (10_state.md R25). -/
def pcRange (mode : MaskMode) (pc : Int) : Prop :=
  match mode with
  | .fixed => 0 ≤ pc ∧ pc ≤ 256
  | .compat => -256 ≤ pc ∧ pc ≤ 256

/-- What holds of every state of a run: memory in canonical form, registers and emitted values in their mode's range
(10_state.md R23, R29), a legal FL (R26), the pc in range (R25), and an injective OPCODE map (30_encoding.md R75). -/
structure State.Inv (s : State) : Prop where
  mem : s.mem.wf
  regs : ∀ r : Fin 8, registerRange s.params.maskMode (s.reg r)
  fl : legalFlags s.fl
  pc : pcRange s.params.maskMode s.pc
  out : ∀ v ∈ s.out, registerRange s.params.maskMode v
  opcodes : s.params.opcodes.Valid

/-- The run has ended (42_execution_loop.md R175). -/
def State.Ended (s : State) : Prop := s.run ≠ .running

/-- The program has ended normally: only Halted is a successful end (42_execution_loop.md R174). -/
def State.EndedNormally (s : State) : Prop := s.run = .halted

/-! ## Frames -/

/-- Every register outside the list is unchanged. -/
def RegsKept (written : List (Fin 8)) (s t : State) : Prop := ∀ r : Fin 8, r ∉ written → t.reg r = s.reg r

/-- Every address reads as before (an address outside 0..255 reads as the same stop). -/
def SameMemory (s t : State) : Prop := ∀ addr : Int, memRead t.mem addr = memRead s.mem addr

/-- Every address but the stored one reads as before. -/
def SameMemoryBut (stored : Int) (s t : State) : Prop :=
  ∀ addr : Int, addr ≠ stored → memRead t.mem addr = memRead s.mem addr

/-- FL, the output stream, the run state and the parameters are unchanged. -/
def RestKept (s t : State) : Prop := t.fl = s.fl ∧ t.out = s.out ∧ t.run = s.run ∧ t.params = s.params

/-- `i` completes in `s`: x[a] becomes `v`, pc moves by `width`, and no other register, flag, output, run state,
parameter or byte of memory changes. -/
def WritesRegister (i : Instr) (width : Int) (a : Fin 8) (v : Int) (s : State) : Prop :=
  ∃ t, exec i s = .next t ∧ t.reg a = v ∧ t.pc = s.pc + width ∧ RegsKept [a] s t ∧ RestKept s t ∧ SameMemory s t

/-- `i` stops in `s` with a fatal kind: run <- Aborted(kind, pc) and nothing else changes (42_execution_loop.md R176). -/
def StopsWith (i : Instr) (kind : AbortKind) (s : State) : Prop :=
  exec i s = .next { s with run := .aborted kind s.pc }

/-- An instruction of one register operand stops with BAD_REGISTER on every byte 8..255 (30_encoding.md R72). -/
def ChecksRegister (i : Byte → Instr) : Prop := ∀ (s : State) (a : Byte), 7 < a.toNat → StopsWith (i a) .badRegister s

/-- An instruction of two register operands stops with BAD_REGISTER when either byte is 8..255 (30_encoding.md R72). -/
def ChecksRegisters (i : Byte → Byte → Instr) : Prop :=
  ∀ (s : State) (a b : Byte), 7 < a.toNat ∨ 7 < b.toNat → StopsWith (i a b) .badRegister s

/-! ## Tables -/

/-- The register bytes an instruction reads (10_state.md R22). -/
def registersRead : Instr → List Byte
  | .hlt => []
  | .ret => [7]
  | .push a => [7, a]
  | .pop _ => [7]
  | .prn a => [a]
  | .call a => [7, a]
  | .not a => [a]
  | .ldi _ _ => []
  | .add a b | .sub a b | .mul a b | .div a b | .mod a b | .cmp a b
  | .and a b | .or a b | .xor a b | .shl a b | .shr a b => [a, b]

/-- The register bytes an instruction writes (10_state.md R22). -/
def registersWritten : Instr → List Byte
  | .hlt => []
  | .ret => [7]
  | .push _ => [7]
  | .pop a => [a, 7]
  | .prn _ => []
  | .call _ => [7]
  | .not a => [a]
  | .ldi a _ => [a]
  | .cmp _ _ => []
  | .add a _ | .sub a _ | .mul a _ | .div a _ | .mod a _
  | .and a _ | .or a _ | .xor a _ | .shl a _ | .shr a _ => [a]

/-- The instructions that may raise a fatal stop, by its kind (60_exceptions.md R201). -/
def mayRaise : AbortKind → Mnemonic → Prop
  | .aluUnsupported, _ => False
  | .divideByZero, n => n = .div ∨ n = .mod
  | .divUndefined, n => n = .div
  | .addressOutOfRange, n => n = .pop ∨ n = .ret
  | .badRegister, n => n ≠ .hlt ∧ n ≠ .ret
  | .negativeShift, n => n = .shl ∨ n = .shr
  | .cellRange, n => n = .push

/-! ## An 8-bit machine, to compare the integer one with -/

/-- The result of an ALU operation on 8-bit patterns (00_scope.md R9, 40_alu.md R114); `none` where it writes no
register. -/
def alu8 : Mnemonic → Byte → Byte → Option Byte
  | .add, p, q => some (p + q)
  | .sub, p, q => some (p - q)
  | .mul, p, q => some (p * q)
  | .div, p, q => some (p / q)
  | .mod, p, q => some (p % q)
  | .and, p, q => some (p &&& q)
  | .or, p, q => some (p ||| q)
  | .xor, p, q => some (p ^^^ q)
  | .not, p, _ => some (~~~p)
  | .shl, p, q => some (p <<< q.toNat)
  | .shr, p, q => some (p >>> q.toNat)
  | _, _, _ => none

/-- Instructions executed one after another from a state, fetch left out: as far as each answers a next state. -/
def execAll : List Instr → State → Option State
  | [], s => some s
  | i :: rest, s =>
    match exec i s with
    | .next t => execAll rest t
    | _ => none

end Sys2Proof.Machine
end

