-- ==== Sys2Proof/Certificates/Slice0/Obligations.lean ====
section
/-! DEFINITION. The statements for the provers. Each docstring names the rule of spec/ it formalises. Every statement is
for every value of MASK_MODE, DIV_MODE and OPCODE (State's field `params`), unless it names one. -/

open Sys2Proof Sys2Proof.Machine

/-! ## The ALU instructions (40_alu.md) -/

/-- R101, R102, R103: ADD, SUB and MUL store the exact sum, difference or product modulo 256 in x[a], move pc by 3 and
change nothing else; a register byte above 7 stops them.
PRESUMED (log entry 3): the default opcode bytes. -/
def Obligations.AddSubMulStoreResultModulo256 : Prop :=
  OpcodeMap.ls8.byte .add = 0xA0 ∧ OpcodeMap.ls8.byte .sub = 0xA1 ∧ OpcodeMap.ls8.byte .mul = 0xA2 ∧
  (∀ (s : State) (a b : Fin 8),
    WritesRegister (.add (regByte a) (regByte b)) 3 a ((s.reg a + s.reg b) % 256) s ∧
    WritesRegister (.sub (regByte a) (regByte b)) 3 a ((s.reg a - s.reg b) % 256) s ∧
    WritesRegister (.mul (regByte a) (regByte b)) 3 a ((s.reg a * s.reg b) % 256) s) ∧
  ChecksRegisters .add ∧ ChecksRegisters .sub ∧ ChecksRegisters .mul

/-- R104: DIV by DIV_MODE; a zero divisor stops with DIVIDE_BY_ZERO in every mode, and any other with DIV_UNDEFINED when
DIV_MODE = ABORT.
PRESUMED (log entry 3): the default opcode byte. -/
def Obligations.DivFollowsDivMode : Prop :=
  OpcodeMap.ls8.byte .div = 0xA3 ∧
  (∀ (s : State) (a b : Fin 8),
    (s.reg b = 0 → StopsWith (.div (regByte a) (regByte b)) .divideByZero s) ∧
    (s.reg b ≠ 0 →
      (s.params.divMode = .floor →
        WritesRegister (.div (regByte a) (regByte b)) 3 a (Int.fdiv (s.reg a) (s.reg b) % 256) s) ∧
      (s.params.divMode = .trunc →
        WritesRegister (.div (regByte a) (regByte b)) 3 a (Int.tdiv (s.reg a) (s.reg b) % 256) s) ∧
      (s.params.divMode = .abort → StopsWith (.div (regByte a) (regByte b)) .divUndefined s))) ∧
  ChecksRegisters .div

/-- R105: MOD stores the remainder with the sign of the divisor, masked in FIXED only; a zero divisor stops.
PRESUMED (log entry 3): the default opcode byte. -/
def Obligations.ModStoresFloorRemainder : Prop :=
  OpcodeMap.ls8.byte .mod = 0xA4 ∧
  (∀ (s : State) (a b : Fin 8),
    (s.reg b = 0 → StopsWith (.mod (regByte a) (regByte b)) .divideByZero s) ∧
    (s.reg b ≠ 0 →
      (s.params.maskMode = .fixed →
        WritesRegister (.mod (regByte a) (regByte b)) 3 a (Int.fmod (s.reg a) (s.reg b) % 256) s) ∧
      (s.params.maskMode = .compat →
        WritesRegister (.mod (regByte a) (regByte b)) 3 a (Int.fmod (s.reg a) (s.reg b)) s))) ∧
  ChecksRegisters .mod

/-- R106, R107, R108, by R10 and R114: AND, OR and XOR store the bitwise result of the operands' 8-bit patterns in x[a], move pc by 3 and
change nothing else; a register byte above 7 stops them.
PRESUMED (log entry 3): the default opcode bytes. -/
def Obligations.AndOrXorStoreBytePatternResult : Prop :=
  OpcodeMap.ls8.byte .and = 0xA8 ∧ OpcodeMap.ls8.byte .or = 0xAA ∧ OpcodeMap.ls8.byte .xor = 0xAB ∧
  (∀ (s : State) (a b : Fin 8),
    WritesRegister (.and (regByte a) (regByte b)) 3 a
      (zext8 (BitVec.ofInt 8 (s.reg a) &&& BitVec.ofInt 8 (s.reg b))) s ∧
    WritesRegister (.or (regByte a) (regByte b)) 3 a
      (zext8 (BitVec.ofInt 8 (s.reg a) ||| BitVec.ofInt 8 (s.reg b))) s ∧
    WritesRegister (.xor (regByte a) (regByte b)) 3 a
      (zext8 (BitVec.ofInt 8 (s.reg a) ^^^ BitVec.ofInt 8 (s.reg b))) s) ∧
  ChecksRegisters .and ∧ ChecksRegisters .or ∧ ChecksRegisters .xor

/-- R109: NOT stores -va - 1, masked in FIXED only, and moves pc by 2.
PRESUMED (log entry 3): the default opcode byte. -/
def Obligations.NotStoresComplement : Prop :=
  OpcodeMap.ls8.byte .not = 0x69 ∧
  (∀ (s : State) (a : Fin 8),
    (s.params.maskMode = .fixed → WritesRegister (.not (regByte a)) 2 a ((-s.reg a - 1) % 256) s) ∧
    (s.params.maskMode = .compat → WritesRegister (.not (regByte a)) 2 a (-s.reg a - 1) s)) ∧
  ChecksRegister .not

/-- R110: SHL stores va * 2^vb mod 256 for every count that is not negative, and stops on a negative one.
PRESUMED (log entry 3): the default opcode byte. -/
def Obligations.ShlShiftsByWholeCount : Prop :=
  OpcodeMap.ls8.byte .shl = 0xAC ∧
  (∀ (s : State) (a b : Fin 8),
    (0 ≤ s.reg b →
      WritesRegister (.shl (regByte a) (regByte b)) 3 a (s.reg a * 2 ^ (s.reg b).toNat % 256) s) ∧
    (s.reg b < 0 → StopsWith (.shl (regByte a) (regByte b)) .negativeShift s)) ∧
  ChecksRegisters .shl

/-- R111: SHR stores floor(va / 2^vb) mod 256 for every count that is not negative, and stops on a negative one.
PRESUMED (log entry 3): the default opcode byte. -/
def Obligations.ShrShiftsByWholeCount : Prop :=
  OpcodeMap.ls8.byte .shr = 0xAD ∧
  (∀ (s : State) (a b : Fin 8),
    (0 ≤ s.reg b →
      WritesRegister (.shr (regByte a) (regByte b)) 3 a (s.reg a / 2 ^ (s.reg b).toNat % 256) s) ∧
    (s.reg b < 0 → StopsWith (.shr (regByte a) (regByte b)) .negativeShift s)) ∧
  ChecksRegisters .shr

/-- R112: CMP leaves FL at exactly one of its bits, whatever FL was, and changes no register and no memory.
PRESUMED (log entry 3): the default opcode byte. -/
def Obligations.CmpOverwritesAllFlags : Prop :=
  OpcodeMap.ls8.byte .cmp = 0xA7 ∧
  (∀ (s : State) (a b : Fin 8), ∃ t, exec (.cmp (regByte a) (regByte b)) s = .next t ∧
    (s.reg a = s.reg b → t.fl = 0b001) ∧ (s.reg a > s.reg b → t.fl = 0b010) ∧ (s.reg a < s.reg b → t.fl = 0b100) ∧
    t.pc = s.pc + 3 ∧ RegsKept [] s t ∧ SameMemory s t ∧ t.out = s.out ∧ t.run = s.run ∧ t.params = s.params) ∧
  ChecksRegisters .cmp

/-! ## The handler instructions (41_handlers.md) -/

/-- R141: LDI stores its immediate zero-extended. -/
def Obligations.LdiLoadsUnsignedImmediate : Prop :=
  OpcodeMap.ls8.byte .ldi = 0x82 ∧
  (∀ (s : State) (a : Fin 8) (imm : Byte), WritesRegister (.ldi (regByte a) imm) 3 a (imm.toNat : Int) s) ∧
  ∀ imm, ChecksRegister (.ldi · imm)

/-- R142: PRN appends x[a] to the output stream and changes nothing else. -/
def Obligations.PrnAppendsRegister : Prop :=
  OpcodeMap.ls8.byte .prn = 0x47 ∧
  (∀ (s : State) (a : Fin 8), ∃ t, exec (.prn (regByte a)) s = .next t ∧ t.out = s.out ++ [s.reg a] ∧
    t.pc = s.pc + 2 ∧ RegsKept [] s t ∧ SameMemory s t ∧ t.fl = s.fl ∧ t.run = s.run ∧ t.params = s.params) ∧
  ChecksRegister .prn

/-- R143: HLT makes no write other than the run state; pc stays at the instruction. -/
def Obligations.HltChangesOnlyRunState : Prop :=
  OpcodeMap.ls8.byte .hlt = 0x01 ∧ ∀ s : State, exec .hlt s = .next { s with run := .halted }

/-- R144: PUSH decrements SP modulo 256, then stores x[a] there (for a = 7 the decremented SP); a value that is no byte
stops it with CELL_RANGE.
PRESUMED (log entry 3): the default opcode byte. -/
def Obligations.PushStoresBelowStackPointer : Prop :=
  OpcodeMap.ls8.byte .push = 0x45 ∧
  (∀ (s : State) (a : Fin 8) (sp v : Int), s.mem.wf → sp = (s.reg 7 - 1) % 256 → v = (if a = 7 then sp else s.reg a) →
    (0 ≤ v ∧ v ≤ 255 → ∃ t, exec (.push (regByte a)) s = .next t ∧ t.reg 7 = sp ∧
      memRead t.mem sp = .ok (BitVec.ofInt 8 v) ∧ SameMemoryBut sp s t ∧
      t.pc = s.pc + 2 ∧ RegsKept [7] s t ∧ RestKept s t) ∧
    (v < 0 ∨ 255 < v → StopsWith (.push (regByte a)) .cellRange s)) ∧
  ChecksRegister .push

/-- R145: POP loads x[a] from the cell at SP, then increments SP modulo 256 (for a = 7: the popped value plus one); an SP
outside 0..255 stops it.
PRESUMED (log entry 3): the default opcode byte. -/
def Obligations.PopLoadsFromStackPointer : Prop :=
  OpcodeMap.ls8.byte .pop = 0x46 ∧
  (∀ (s : State) (a : Fin 8) (v : Byte), memRead s.mem (s.reg 7) = .ok v → ∃ t,
    exec (.pop (regByte a)) s = .next t ∧
    (a ≠ 7 → t.reg a = (v.toNat : Int) ∧ t.reg 7 = (s.reg 7 + 1) % 256) ∧
    (a = 7 → t.reg 7 = ((v.toNat : Int) + 1) % 256) ∧
    t.pc = s.pc + 2 ∧ RegsKept [a, 7] s t ∧ RestKept s t ∧ SameMemory s t) ∧
  (∀ (s : State) (a : Fin 8), s.reg 7 < 0 ∨ 255 < s.reg 7 → StopsWith (.pop (regByte a)) .addressOutOfRange s) ∧
  ChecksRegister .pop

/-- R146: CALL pushes pc + 2, a byte by the fetch bound, and goes to x[a] as it is after SP was decremented.
PRESUMED (log entry 3): the default opcode byte. -/
def Obligations.CallPushesReturnAddress : Prop :=
  OpcodeMap.ls8.byte .call = 0x50 ∧
  (∀ (s : State) (a : Fin 8) (sp : Int), s.mem.wf → 0 ≤ s.pc → s.pc ≤ 253 → sp = (s.reg 7 - 1) % 256 → ∃ t,
    exec (.call (regByte a)) s = .next t ∧ t.reg 7 = sp ∧
    memRead t.mem sp = .ok (BitVec.ofInt 8 (s.pc + 2)) ∧ SameMemoryBut sp s t ∧
    t.pc = (if a = 7 then sp else s.reg a) ∧ RegsKept [7] s t ∧ RestKept s t) ∧
  ChecksRegister .call

/-- R147: RET goes to the byte at SP and increments SP modulo 256; an SP outside 0..255 stops it.
PRESUMED (log entry 3): the default opcode byte. -/
def Obligations.RetPopsProgramCounter : Prop :=
  OpcodeMap.ls8.byte .ret = 0x11 ∧
  (∀ (s : State) (v : Byte), memRead s.mem (s.reg 7) = .ok v → ∃ t, exec .ret s = .next t ∧
    t.pc = (v.toNat : Int) ∧ t.reg 7 = (s.reg 7 + 1) % 256 ∧ RegsKept [7] s t ∧ RestKept s t ∧ SameMemory s t) ∧
  ∀ s : State, s.reg 7 < 0 ∨ 255 < s.reg 7 → StopsWith .ret .addressOutOfRange s

/-- R149, first law, for an SP that is a byte: PUSH then POP on the same register restores the register and SP. The rule
claims it for COMPAT "whenever PUSH does not stop"; see PushPopRestoresAnyStackPointer and log entry 11. -/
def Obligations.PushPopRestoresRegisterAndStackPointer : Prop :=
  ∀ (s t : State) (a : Fin 8), s.mem.wf → 0 ≤ s.reg 7 → s.reg 7 ≤ 255 → exec (.push (regByte a)) s = .next t →
    t.run = .running → ∃ u, exec (.pop (regByte a)) t = .next u ∧ u.reg a = s.reg a ∧ u.reg 7 = s.reg 7

/-- R149's remark that in COMPAT the first law "holds whenever PUSH does not stop", taken at its word for every SP in
-256..255. Expected to FAIL: with SP = -1, PUSH R0 leaves SP = 254 and POP R0 leaves SP = 255 (rules R144, R145). -/
def Obligations.PushPopRestoresAnyStackPointer : Prop :=
  ∀ (s t : State) (a : Fin 8), s.Inv → s.run = .running → exec (.push (regByte a)) s = .next t → t.run = .running →
    ∃ u, exec (.pop (regByte a)) t = .next u ∧ u.reg a = s.reg a ∧ u.reg 7 = s.reg 7

/-- R149, second law: a RET from any state where SP and the cell it addresses are as CALL left them resumes after the
CALL's two bytes, with SP as before the CALL for an SP that is a byte. DEDUCED (log entry 11): for a negative SP in COMPAT
R149 states no exception, and by R146 and R147 SP comes back as its value modulo 256; the model follows those rules. -/
def Obligations.CallRetResumesAfterCall : Prop :=
  ∀ (s : State) (a : Fin 8), s.mem.wf → 0 ≤ s.pc → s.pc ≤ 253 →
    ∃ t, exec (.call (regByte a)) s = .next t ∧
      ∀ u : State, u.reg 7 = t.reg 7 → memRead u.mem (t.reg 7) = memRead t.mem (t.reg 7) →
        ∃ v, exec .ret u = .next v ∧ v.pc = s.pc + 2 ∧ v.reg 7 = s.reg 7 % 256 ∧
          (0 ≤ s.reg 7 → s.reg 7 ≤ 255 → v.reg 7 = s.reg 7)

/-- R24, R226 over any number of pushes: k pushes of one register other than R7 leave SP at SP - k modulo 256, and the
last (at most 256) pushed cells hold the value. -/
def Obligations.ConsecutivePushesFillMemoryDownward : Prop :=
  ∀ (s : State) (a : Fin 8) (k : Nat), s.mem.wf → a ≠ 7 → 0 ≤ s.reg a → s.reg a ≤ 255 →
    0 ≤ s.reg 7 → s.reg 7 ≤ 255 →
    ∃ t, execAll (List.replicate k (.push (regByte a))) s = some t ∧
      t.reg 7 = (s.reg 7 - k) % 256 ∧ t.pc = s.pc + 2 * k ∧
      ∀ j : Nat, 1 ≤ j → j ≤ k → memRead t.mem ((s.reg 7 - j) % 256) = .ok (BitVec.ofInt 8 (s.reg a))

/-! ## Arithmetic (00_scope.md R9, R10; 40_alu.md R114) -/

/-- R10, quotients and shifts: floordiv and floormod by their defining property, truncdiv as rounding toward zero,
and the two shifts by powers of two. -/
def Obligations.DivisionsRoundAsDefined : Prop :=
  (∀ p q : Int, q ≠ 0 → floordiv p q = ⌊(p : ℚ) / (q : ℚ)⌋ ∧ floormod p q = p - q * floordiv p q ∧
    truncdiv p q = (if 0 ≤ (p : ℚ) / (q : ℚ) then ⌊(p : ℚ) / (q : ℚ)⌋ else ⌈(p : ℚ) / (q : ℚ)⌉)) ∧
  (∀ p q : Int, 0 ≤ p → 0 < q → floordiv p q = truncdiv p q ∧ floormod p q = p % q) ∧
  ∀ (p : Int) (n : Nat), shiftLeft p n = p * 2 ^ n ∧ shiftRight p n = ⌊(p : ℚ) / 2 ^ n⌋

/-- R10, bitwise operations on two's-complement integers of unbounded width: bit by bit, and their masks. -/
def Obligations.BitwiseOperationsAreTwosComplement : Prop :=
  ∀ p q : Int,
    (∀ k, Int.testBit (bitAnd p q) k = (Int.testBit p k && Int.testBit q k)) ∧
    (∀ k, Int.testBit (bitOr p q) k = (Int.testBit p k || Int.testBit q k)) ∧
    (∀ k, Int.testBit (bitXor p q) k = (Int.testBit p k ^^ Int.testBit q k)) ∧
    bitNot p = -p - 1 ∧
    mask (bitAnd p q) = bitAnd (mask p) (mask q) ∧ mask (bitOr p q) = bitOr (mask p) (mask q) ∧
    mask (bitXor p q) = bitXor (mask p) (mask q)

/-- R114, the identity used by models: ADD, SUB, MUL, AND, OR, XOR and SHL are functions of the operands' 8-bit patterns
and the count, in both modes. -/
def Obligations.AluDependsOnlyOnBytePatterns : Prop :=
  ∀ va vb : Int,
    aluAdd va vb = aluAdd (mask va) (mask vb) ∧ aluSub va vb = aluSub (mask va) (mask vb) ∧
    aluMul va vb = aluMul (mask va) (mask vb) ∧ aluAnd va vb = aluAnd (mask va) (mask vb) ∧
    aluOr va vb = aluOr (mask va) (mask vb) ∧ aluXor va vb = aluXor (mask va) (mask vb) ∧
    (0 ≤ vb → aluShl va vb = aluShl (mask va) vb)

/-- R9, R23: in MASK_MODE = FIXED an 8-bit bit-vector model is exact. Every ALU instruction that writes a register gives,
on registers that are bytes, the result of the 8-bit machine `alu8`, and the result is a byte again; CMP is the unsigned
comparison of the two bytes. -/
def Obligations.EightBitAluIsExactInFixedMode : Prop :=
  ∀ (s : State) (n : Mnemonic) (a b : Fin 8) (r : Byte),
    s.params.maskMode = .fixed → s.params.divMode ≠ .abort → (∀ q : Fin 8, 0 ≤ s.reg q ∧ s.reg q ≤ 255) →
    ((n = .div ∨ n = .mod) → s.reg b ≠ 0) →
    (alu8 n (BitVec.ofInt 8 (s.reg a)) (BitVec.ofInt 8 (s.reg b)) = some r →
      ∃ t, exec (Instr.ofBytes n (regByte a) (regByte b)) s = .next t ∧ t.reg a = zext8 r ∧ t.run = s.run) ∧
    ∃ t, exec (.cmp (regByte a) (regByte b)) s = .next t ∧
      t.equalFlag = (BitVec.ofInt 8 (s.reg a) == BitVec.ofInt 8 (s.reg b)) ∧
      t.greaterFlag = BitVec.ult (BitVec.ofInt 8 (s.reg b)) (BitVec.ofInt 8 (s.reg a)) ∧
      t.lessFlag = BitVec.ult (BitVec.ofInt 8 (s.reg a)) (BitVec.ofInt 8 (s.reg b))

/-! ## Encoding (30_encoding.md) -/

/-- Decoding an encoded instruction gives it back, for every injective OPCODE map, every value of every operand byte and
every value of the bytes behind it (R70, R71, R74, R75, R80). -/
def Obligations.DecodeOfEncodeIsIdentity : Prop :=
  ∀ (m : OpcodeMap) (i : Instr) (p q : Byte), m.Valid → decodeBytes m (encode m i ++ [p, q]) = .ok i

/-- The other direction: what decodes to an instruction begins with its encoding, for every OPCODE map. -/
def Obligations.EncodeOfDecodeIsPrefix : Prop :=
  ∀ (m : OpcodeMap) (op a b : Byte) (i : Instr), decode m op a b = .ok i → encode m i = [op, a, b].take i.width

/-- R74: an instruction is selected exactly by its whole opcode byte, and by nothing else. -/
def Obligations.WholeOpcodeByteSelectsInstruction : Prop :=
  ∀ (m : OpcodeMap) (op a b : Byte) (n : Mnemonic), m.Valid →
    (m.byte n = op ↔ decode m op a b = .ok (Instr.ofBytes n a b))

/-- R76: a byte that is no instruction's OPCODE is unknown, whatever follows it; with the default OPCODE those are 237
values, 0x00 among them.
PRESUMED (log entry 3): the default opcode bytes. -/
def Obligations.UnknownOpcodesAreAllOthers : Prop :=
  (∀ (m : OpcodeMap) (op a b : Byte), (∀ n : Mnemonic, m.byte n ≠ op) ↔ decode m op a b = .error (.unknownOpcode op)) ∧
  ((List.range 256).filter fun k => OpcodeMap.ls8.lookup (BitVec.ofNat 8 k) == none).length = 237 ∧
  OpcodeMap.ls8.lookup 0x00 = none

/-- R77, R78 and the default table of R75: the bytes are distinct, the width of every instruction is as listed, agrees
with bits 7:6 of the default opcode, and is the length of the encoding.
PRESUMED (log entry 3): the default opcode bytes. -/
def Obligations.DefaultOpcodesAndWidths : Prop :=
  OpcodeMap.ls8.Valid ∧
  Mnemonic.all.map OpcodeMap.ls8.byte =
    [0x01, 0x11, 0x45, 0x46, 0x47, 0x50, 0x69, 0x82, 0xA0, 0xA1, 0xA2, 0xA3, 0xA4, 0xA7, 0xA8, 0xAA, 0xAB, 0xAC, 0xAD] ∧
  Mnemonic.all.map Mnemonic.width = [1, 1, 2, 2, 2, 2, 2, 3, 3, 3, 3, 3, 3, 3, 3, 3, 3, 3, 3] ∧
  (∀ n : Mnemonic, n ∈ Mnemonic.all ∧ n.width = (OpcodeMap.ls8.byte n).toNat / 64 + 1) ∧
  ∀ (m : OpcodeMap) (i : Instr), (encode m i).length = i.width

/-- A sanity check of decoding: one word of each format, written out from R71 and R75.
PRESUMED (log entry 3): the default bytes of PUSH and SUB. -/
def Obligations.WrittenWordsDecode : Prop :=
  decodeTableWord 8 0b00000001 = some .hlt ∧
  decodeTableWord 16 0b00000011_01000101 = some (.push 3) ∧
  decodeTableWord 24 0b00001000_00000000_10000010 = some (.ldi 0 8) ∧
  decodeTableWord 24 0b00000111_00000001_10100001 = some (.sub 1 7) ∧
  decodeTableWord 8 0b00000000 = none

/-! ## The step (42_execution_loop.md, 60_exceptions.md) -/

/-- R170, R172: when the three bytes at the pc of a running core decode to an instruction, the step is that
instruction's rule run in that state. -/
def Obligations.StepRunsDecodedInstruction : Prop :=
  ∀ (s : State) (op a b : Byte) (i : Instr), s.run = .running →
    memRead s.mem s.pc = .ok op → memRead s.mem (s.pc + 1) = .ok a → memRead s.mem (s.pc + 2) = .ok b →
    decode s.params.opcodes op a b = .ok i → step s = exec i s

/-- R171: a fetch whose three bytes are not all in 0..255 stops the step and changes nothing else; any other fetch reads
the bytes at pc, pc + 1 and pc + 2 as memory holds them. -/
def Obligations.FetchNeedsThreeBytesInRange : Prop :=
  ∀ s : State, s.run = .running →
    (s.pc < 0 ∨ 253 < s.pc → step s = .next { s with run := .aborted .addressOutOfRange s.pc }) ∧
    (0 ≤ s.pc ∧ s.pc ≤ 253 → ∃ op a b, memRead s.mem s.pc = .ok op ∧ memRead s.mem (s.pc + 1) = .ok a ∧
      memRead s.mem (s.pc + 2) = .ok b ∧
      step s = match decode s.params.opcodes op a b with
        | .ok i => exec i s
        | .error _ => .next { s with run := .faulted op s.pc })

/-- R173: an unknown opcode sets run <- Faulted(op, pc) and changes nothing else. -/
def Obligations.UnknownOpcodeFaultsPrecisely : Prop :=
  ∀ (s : State) (op : Byte), s.run = .running → 0 ≤ s.pc → s.pc ≤ 253 → memRead s.mem s.pc = .ok op →
    (∀ n : Mnemonic, s.params.opcodes.byte n ≠ op) → step s = .next { s with run := .faulted op s.pc }

/-- R174: no step is defined in a state whose run has ended, and under any budget the loop leaves it as it is.
DEDUCED (log entry 9): that step answers the fault `terminal` there is how the model renders a step that is not defined. -/
def Obligations.EndedRunsAreFrozen : Prop :=
  ∀ s : State, s.Ended →
    step s = .fault (.terminal s.run) ∧ (∀ t, step s ≠ .next t) ∧ ∀ budget, runLoop budget s = s

/-- R175: once a budget suffices for a run to end, every larger budget ends it in the same state. -/
def Obligations.LargerBudgetsKeepTheEnd : Prop :=
  ∀ (s : State) (n k : Nat), (runLoop n s).Ended → runLoop (n + k) s = runLoop n s

/-- R179: every step is enabled while Running. -/
def Obligations.RunningCoreAlwaysSteps : Prop := ∀ s : State, s.run = .running → ∃ t, step s = .next t

/-- R176, R203: when a step ends a run with a fatal stop, the state is the one before it but for the run state, which
records the kind and the stopping instruction's address. -/
def Obligations.FatalStopsArePrecise : Prop :=
  ∀ (s t : State) (kind : AbortKind) (addr : Int), s.run = .running → step s = .next t → t.run = .aborted kind addr →
    addr = s.pc ∧ t = { s with run := .aborted kind s.pc }

/-- R72: an instruction stops with BAD_REGISTER, writing nothing, exactly when one of the bytes it uses as a register
index is 8..255. -/
def Obligations.BadRegisterExactlyWhenIllFormed : Prop :=
  ∀ (i : Instr) (s : State), s.run = .running → (StopsWith i .badRegister s ↔ i.wf = false)

/-- R204: the checks in their order: fetch bounds, unknown opcode, register operands, the instruction's own checks, DIV
reporting DIVIDE_BY_ZERO before DIV_UNDEFINED. -/
def Obligations.StopChecksInPriorityOrder : Prop :=
  ∀ s : State, s.run = .running →
    (s.pc < 0 ∨ 253 < s.pc → step s = .next { s with run := .aborted .addressOutOfRange s.pc }) ∧
    (∀ op, 0 ≤ s.pc → s.pc ≤ 253 → memRead s.mem s.pc = .ok op → s.params.opcodes.lookup op = none →
      step s = .next { s with run := .faulted op s.pc }) ∧
    (∀ i, fetch s = .instr i → i.wf = false → step s = .next { s with run := .aborted .badRegister s.pc }) ∧
    (∀ i t addr, fetch s = .instr i → i.wf = true → step s = .next t → t.run ≠ .aborted .badRegister addr) ∧
    ∀ a b : Fin 8, fetch s = .instr (.div (regByte a) (regByte b)) → s.reg b = 0 → s.params.divMode = .abort →
      step s = .next { s with run := .aborted .divideByZero s.pc }

/-- R201: which instruction may raise which kind of fatal stop, and the codes of the stops. ALU_UNSUPPORTED is raised by
none. The premise on pc is what the fetch has checked (R171). -/
def Obligations.StopKindsAndTheirRaisers : Prop :=
  (∀ (i : Instr) (s t : State) (kind : AbortKind) (addr : Int), s.run = .running → 0 ≤ s.pc → s.pc ≤ 253 →
    exec i s = .next t → t.run = .aborted kind addr → mayRaise kind i.mnemonic) ∧
  RunState.code .halted = some 0 ∧ (∀ op addr, RunState.code (.faulted op addr) = some 1) ∧
  ∀ addr, [AbortKind.aluUnsupported, .divideByZero, .divUndefined, .addressOutOfRange, .badRegister, .negativeShift,
    .cellRange].map (fun k => RunState.code (.aborted k addr)) = [some 2, some 3, some 4, some 5, some 6, some 7, some 8]

/-- R201's last sentence: in MASK_MODE = FIXED NEGATIVE_SHIFT and CELL_RANGE cannot occur, and ADDRESS_OUT_OF_RANGE
occurs only at fetch. The invariant rules out states no run reaches. -/
def Obligations.FixedModeStops : Prop :=
  ∀ (s t : State) (kind : AbortKind) (addr : Int), s.Inv → s.params.maskMode = .fixed → s.run = .running →
    step s = .next t → t.run = .aborted kind addr →
    kind ≠ .negativeShift ∧ kind ≠ .cellRange ∧ (kind = .addressOutOfRange → 253 < s.pc)

/-! ## Invariants and whole-machine rules (10_state.md, 20_memory.md) -/

/-- R23, R26, R29, R32: every step keeps memory canonical, registers and emitted values in their mode's range, FL legal,
pc in range and the OPCODE map injective (30_encoding.md R75). -/
def Obligations.StepKeepsInvariant : Prop := ∀ s t : State, s.Inv → step s = .next t → t.Inv

/-- The invariant holds right after reset.
It rests on the parameters the model gives reset (log entries 2 and 3). -/
def Obligations.ResetMeetsInvariant : Prop := State.reset.Inv

/-- R34: every piece of state after reset. -/
def Obligations.ResetState : Prop :=
  (∀ addr : Int, 0 ≤ addr → addr ≤ 255 →
    memRead State.reset.mem addr = .ok (if addr = 7 then 0xF4 else 0x00)) ∧
  (∀ r : Fin 8, State.reset.reg r = 0) ∧ State.reset.pc = 0 ∧ State.reset.fl = 0b000 ∧
  State.reset.run = .running ∧ State.reset.out = []

/-- R221: an image of n bytes, 0 ≤ n ≤ 256, each 0..255, is written from address 0 and nothing else changes; any other
image is refused. The invariant is kept. DESIGN CHOICE (log entry 13): that the function `State.load` is defined in states
other than the one after reset, where the spec has no load. -/
def Obligations.LoadWritesImageFromZero : Prop :=
  (∀ (s : State) (img : List Nat), s.mem.wf → img.length ≤ 256 → (∀ v ∈ img, v < 256) →
    ∃ t, s.load img = some t ∧
      (∀ (k : Nat) (h : k < img.length), memRead t.mem k = .ok (BitVec.ofNat 8 img[k])) ∧
      (∀ k : Nat, img.length ≤ k → memRead t.mem k = memRead s.mem k) ∧
      RegsKept [] s t ∧ t.pc = s.pc ∧ RestKept s t ∧ (s.Inv → t.Inv)) ∧
  ∀ (s : State) (img : List Nat), (256 < img.length ∨ ∃ v ∈ img, 256 ≤ v) → s.load img = none

/-- R20, D1, D2, D14: the parameters are no state: no step changes them. -/
def Obligations.ParametersAreConstant : Prop := ∀ s t : State, step s = .next t → t.params = s.params

/-- R26: CMP is the only writer of FL, and it leaves one bit set. -/
def Obligations.OnlyCmpWritesFlags : Prop :=
  ∀ (i : Instr) (s t : State), exec i s = .next t →
    (i.mnemonic ≠ .cmp → t.fl = s.fl) ∧
    (t.fl ≠ s.fl → t.fl = 0b001 ∨ t.fl = 0b010 ∨ t.fl = 0b100)

/-- R27: no instruction reads FL: with another FL a step does the same to all the rest of the state. -/
def Obligations.NoStepDependsOnFlags : Prop :=
  ∀ (s t : State) (f : FlagBits), step s = .next t →
    ∃ u, step (s.setFl f) = .next u ∧ u.setFl 0 = t.setFl 0

/-- R29, R142: the output stream only grows, by PRN, one register's value at a time. -/
def Obligations.OnlyPrnExtendsOutput : Prop :=
  ∀ (i : Instr) (s t : State), exec i s = .next t →
    t.out = s.out ∨ ∃ a : Fin 8, i = .prn (regByte a) ∧ t.out = s.out ++ [s.reg a]

/-- R50, R32, C2: only PUSH and CALL write memory, and only the cell at mask(SP - 1). -/
def Obligations.OnlyPushAndCallWriteMemory : Prop :=
  ∀ (i : Instr) (s t : State), exec i s = .next t →
    (i.mnemonic ≠ .push → i.mnemonic ≠ .call → SameMemory s t) ∧ SameMemoryBut ((s.reg 7 - 1) % 256) s t

/-- R22, the writes: an instruction changes no register but those its table row names. -/
def Obligations.OnlyListedRegistersWritten : Prop :=
  ∀ (i : Instr) (s t : State) (r : Fin 8), exec i s = .next t → regByte r ∉ registersWritten i → t.reg r = s.reg r

/-- R22, the reads: the value of a register its table row does not name changes nothing an instruction does to the rest
of the state. -/
def Obligations.OnlyListedRegistersRead : Prop :=
  ∀ (i : Instr) (s t : State) (r : Fin 8) (v : Int), exec i s = .next t → regByte r ∉ registersRead i →
    ∃ u, exec i (s.setReg r v) = .next u ∧ (∀ q, q ≠ r → u.reg q = t.reg q) ∧
      u.mem = t.mem ∧ u.pc = t.pc ∧ u.fl = t.fl ∧ u.out = t.out ∧ u.run = t.run

/-- R25, R77: an instruction that does not end the run, and is no CALL or RET, moves pc by exactly its width, which is
not reduced modulo 256. -/
def Obligations.ProgramCounterMovesByWidth : Prop :=
  ∀ (i : Instr) (s t : State), s.run = .running → exec i s = .next t → t.run = .running →
    i.mnemonic ≠ .call → i.mnemonic ≠ .ret → t.pc = s.pc + (i.width : Int)

/-- R51: MemRead and MemWrite, their checks in order, and that a read gives what was last written (R58). -/
def Obligations.MemoryPrimitivesBehave : Prop :=
  ∀ (m : Memory) (addr v : Int), m.wf →
    (addr < 0 ∨ 255 < addr → memRead m addr = .error .addressOutOfRange ∧
      memWrite m addr v = .error .addressOutOfRange) ∧
    (0 ≤ addr ∧ addr ≤ 255 → (∃ b, memRead m addr = .ok b) ∧
      (v < 0 ∨ 255 < v → memWrite m addr v = .error .cellRange) ∧
      (0 ≤ v ∧ v ≤ 255 → ∃ m', memWrite m addr v = .ok m' ∧ m'.wf ∧
        memRead m' addr = .ok (BitVec.ofInt 8 v) ∧ ∀ a, a ≠ addr → memRead m' a = memRead m a))

/-- The model's canonical form is one: memories that read the same at every address are the same list (DESIGN CHOICE of
the representation, log entry 8). -/
def Obligations.CanonicalMemoryIsUnique : Prop :=
  ∀ m m' : Memory, m.wf → m'.wf → (∀ addr : Int, memRead m addr = memRead m' addr) → m = m'

/-- The host's placing of a word: stored at the pc of a running core, the very next step runs what the decoder reads
from it (log entry 7), under the default OPCODE map (log entry 3). -/
def Obligations.PlacedWordIsRunNext : Prop :=
  ∀ (s : State) (nbits w : Nat) (i : Instr), s.mem.wf → s.run = .running → 0 ≤ s.pc → s.pc ≤ 253 →
    s.params.opcodes = OpcodeMap.ls8 → decodeTableWord nbits w = some i →
    step (s.withFetchWord nbits w) = exec i (s.withFetchWord nbits w)

/-! ## Text (30_encoding.md R81 to R83) -/

/-- R82, R83: a blank or comment-only line anywhere leaves the image as it is, and every byte's line of eight binary
digits, with or without a comment behind it, is that byte. -/
def Obligations.ImageTextSkipsCommentsAndBlanks : Prop :=
  (∀ (before after : List (List Char)) (line : List Char), (line.takeWhile (· != '#')).all isBlank = true →
    parseImageLines (before ++ line :: after) = parseImageLines (before ++ after)) ∧
  ∀ (b : Byte) (comment : List Char), parseImageLine (imageLine b ++ '#' :: comment) = some [b.toNat] ∧
    parseImageLine (imageLine b) = some [b.toNat]

/-- R81: the assembler text of a well-formed instruction names that instruction. -/
def Obligations.AssemblerTextNamesInstruction : Prop := ∀ i : Instr, i.wf = true → parseAsm (asmText i) = some i
end

