-- ==== Sys2Proof/Laws/State.lean ====
section
/-! SUPPORT. What each update of the state does to each field: one lemma for each field of each update, so that no later
proof unfolds a record update. -/

namespace Sys2Proof.Machine

variable (s : State)

/-! ## setReg -/

@[simp] theorem setReg_mem (r : Fin 8) (v : Int) : (s.setReg r v).mem = s.mem := rfl
@[simp] theorem setReg_pc (r : Fin 8) (v : Int) : (s.setReg r v).pc = s.pc := rfl
@[simp] theorem setReg_fl (r : Fin 8) (v : Int) : (s.setReg r v).fl = s.fl := rfl
@[simp] theorem setReg_run (r : Fin 8) (v : Int) : (s.setReg r v).run = s.run := rfl
@[simp] theorem setReg_out (r : Fin 8) (v : Int) : (s.setReg r v).out = s.out := rfl
@[simp] theorem setReg_params (r : Fin 8) (v : Int) : (s.setReg r v).params = s.params := rfl

@[simp] theorem setReg_reg_self (r : Fin 8) (v : Int) : (s.setReg r v).reg r = v := by
  simp [State.setReg, State.reg]

theorem setReg_reg_ne {r q : Fin 8} (v : Int) (h : q ≠ r) : (s.setReg r v).reg q = s.reg q := by
  have : r.val ≠ q.val := fun e => h (Fin.ext e.symm)
  simp [State.setReg, State.reg, this]

/-- The read of any register after a register write. -/
theorem setReg_reg (r q : Fin 8) (v : Int) : (s.setReg r v).reg q = if q = r then v else s.reg q := by
  split
  · next h => subst h; simp
  · next h => exact setReg_reg_ne s v h

/-! ## setPc -/

@[simp] theorem setPc_mem (p : Int) : (s.setPc p).mem = s.mem := rfl
@[simp] theorem setPc_pc (p : Int) : (s.setPc p).pc = p := rfl
@[simp] theorem setPc_fl (p : Int) : (s.setPc p).fl = s.fl := rfl
@[simp] theorem setPc_run (p : Int) : (s.setPc p).run = s.run := rfl
@[simp] theorem setPc_out (p : Int) : (s.setPc p).out = s.out := rfl
@[simp] theorem setPc_params (p : Int) : (s.setPc p).params = s.params := rfl
@[simp] theorem setPc_reg (p : Int) (q : Fin 8) : (s.setPc p).reg q = s.reg q := rfl

/-! ## setFl -/

@[simp] theorem setFl_mem (f : FlagBits) : (s.setFl f).mem = s.mem := rfl
@[simp] theorem setFl_pc (f : FlagBits) : (s.setFl f).pc = s.pc := rfl
@[simp] theorem setFl_fl (f : FlagBits) : (s.setFl f).fl = f := rfl
@[simp] theorem setFl_run (f : FlagBits) : (s.setFl f).run = s.run := rfl
@[simp] theorem setFl_out (f : FlagBits) : (s.setFl f).out = s.out := rfl
@[simp] theorem setFl_params (f : FlagBits) : (s.setFl f).params = s.params := rfl
@[simp] theorem setFl_reg (f : FlagBits) (q : Fin 8) : (s.setFl f).reg q = s.reg q := rfl

/-! ## setMem -/

@[simp] theorem setMem_mem (m : Memory) : (s.setMem m).mem = m := rfl
@[simp] theorem setMem_pc (m : Memory) : (s.setMem m).pc = s.pc := rfl
@[simp] theorem setMem_fl (m : Memory) : (s.setMem m).fl = s.fl := rfl
@[simp] theorem setMem_run (m : Memory) : (s.setMem m).run = s.run := rfl
@[simp] theorem setMem_out (m : Memory) : (s.setMem m).out = s.out := rfl
@[simp] theorem setMem_params (m : Memory) : (s.setMem m).params = s.params := rfl
@[simp] theorem setMem_reg (m : Memory) (q : Fin 8) : (s.setMem m).reg q = s.reg q := rfl

/-! ## emit -/

@[simp] theorem emit_mem (v : Int) : (s.emit v).mem = s.mem := rfl
@[simp] theorem emit_pc (v : Int) : (s.emit v).pc = s.pc := rfl
@[simp] theorem emit_fl (v : Int) : (s.emit v).fl = s.fl := rfl
@[simp] theorem emit_run (v : Int) : (s.emit v).run = s.run := rfl
@[simp] theorem emit_out (v : Int) : (s.emit v).out = s.out ++ [v] := rfl
@[simp] theorem emit_params (v : Int) : (s.emit v).params = s.params := rfl
@[simp] theorem emit_reg (v : Int) (q : Fin 8) : (s.emit v).reg q = s.reg q := rfl

/-! ## setRun -/

@[simp] theorem setRun_mem (r : RunState) : (s.setRun r).mem = s.mem := rfl
@[simp] theorem setRun_pc (r : RunState) : (s.setRun r).pc = s.pc := rfl
@[simp] theorem setRun_fl (r : RunState) : (s.setRun r).fl = s.fl := rfl
@[simp] theorem setRun_run (r : RunState) : (s.setRun r).run = r := rfl
@[simp] theorem setRun_out (r : RunState) : (s.setRun r).out = s.out := rfl
@[simp] theorem setRun_params (r : RunState) : (s.setRun r).params = s.params := rfl
@[simp] theorem setRun_reg (r : RunState) (q : Fin 8) : (s.setRun r).reg q = s.reg q := rfl

/-! ## advance -/

@[simp] theorem advance_mem (w : Int) : (s.advance w).mem = s.mem := rfl
@[simp] theorem advance_pc (w : Int) : (s.advance w).pc = s.pc + w := rfl
@[simp] theorem advance_fl (w : Int) : (s.advance w).fl = s.fl := rfl
@[simp] theorem advance_run (w : Int) : (s.advance w).run = s.run := rfl
@[simp] theorem advance_out (w : Int) : (s.advance w).out = s.out := rfl
@[simp] theorem advance_params (w : Int) : (s.advance w).params = s.params := rfl
@[simp] theorem advance_reg (w : Int) (q : Fin 8) : (s.advance w).reg q = s.reg q := rfl

/-! ## abort -/

@[simp] theorem abort_mem (k : AbortKind) : (s.abort k).mem = s.mem := rfl
@[simp] theorem abort_pc (k : AbortKind) : (s.abort k).pc = s.pc := rfl
@[simp] theorem abort_fl (k : AbortKind) : (s.abort k).fl = s.fl := rfl
@[simp] theorem abort_run (k : AbortKind) : (s.abort k).run = .aborted k s.pc := rfl
@[simp] theorem abort_out (k : AbortKind) : (s.abort k).out = s.out := rfl
@[simp] theorem abort_params (k : AbortKind) : (s.abort k).params = s.params := rfl
@[simp] theorem abort_reg (k : AbortKind) (q : Fin 8) : (s.abort k).reg q = s.reg q := rfl

/-! ## faultOn -/

@[simp] theorem faultOn_mem (op : Byte) : (s.faultOn op).mem = s.mem := rfl
@[simp] theorem faultOn_pc (op : Byte) : (s.faultOn op).pc = s.pc := rfl
@[simp] theorem faultOn_fl (op : Byte) : (s.faultOn op).fl = s.fl := rfl
@[simp] theorem faultOn_run (op : Byte) : (s.faultOn op).run = .faulted op s.pc := rfl
@[simp] theorem faultOn_out (op : Byte) : (s.faultOn op).out = s.out := rfl
@[simp] theorem faultOn_params (op : Byte) : (s.faultOn op).params = s.params := rfl
@[simp] theorem faultOn_reg (op : Byte) (q : Fin 8) : (s.faultOn op).reg q = s.reg q := rfl

/-! ## Reset -/

@[simp] theorem reset_mem : State.reset.mem = [] := rfl
@[simp] theorem reset_pc : State.reset.pc = 0 := rfl
@[simp] theorem reset_fl : State.reset.fl = 0 := rfl
@[simp] theorem reset_run : State.reset.run = .running := rfl
@[simp] theorem reset_out : State.reset.out = [] := rfl
@[simp] theorem reset_params : State.reset.params = resetParams := rfl
@[simp] theorem reset_reg (r : Fin 8) : State.reset.reg r = 0 := by revert r; decide

/-- Two states with the same fields, registers compared one by one, are one state. -/
theorem State.ext_regs {s t : State} (hm : s.mem = t.mem) (hx : ∀ r, s.reg r = t.reg r) (hp : s.pc = t.pc)
    (hf : s.fl = t.fl) (hr : s.run = t.run) (ho : s.out = t.out) (hq : s.params = t.params) : s = t := by
  have hv : s.x = t.x := Vector.ext fun i hi => hx ⟨i, hi⟩
  cases s; cases t; simp_all

end Sys2Proof.Machine
end

