-- ==== Sys2Proof/Laws/Memory.lean ====
section
/-! SUPPORT. The laws of memory: a read after a write, and that every memory operation keeps the canonical form
(10_state.md R32, 20_memory.md R51, R58). -/

namespace Sys2Proof.Machine

/-- Every listed address is above `addr`. -/
abbrev Memory.Above (addr : Nat) (m : Memory) : Prop := ∀ c ∈ m, addr < c.1

theorem Memory.wf_tail {c : Host.Cell} {m : Memory} (h : Memory.wf (c :: m)) : Memory.wf m :=
  ⟨(List.pairwise_cons.1 h.1).2, fun d hd => h.2 d (List.mem_cons_of_mem _ hd)⟩

theorem Memory.wf_above {c : Host.Cell} {m : Memory} (h : Memory.wf (c :: m)) : Memory.Above c.1 m :=
  (List.pairwise_cons.1 h.1).1

theorem Memory.read_above {m : Memory} {addr : Nat} (h : Memory.Above addr m) : Memory.read m addr = resetByte addr := by
  induction m with
  | nil => rfl
  | cons c rest ih =>
    have hc : c.1 ≠ addr := Nat.ne_of_gt (h c (by simp))
    have hr : Memory.Above addr rest := fun d hd => h d (List.mem_cons_of_mem _ hd)
    simp [Memory.read, hc, ih hr]

theorem Memory.read_cons_same {m : Memory} {addr : Nat} (v : Byte) (h : Memory.Above addr m) :
    Memory.read (Memory.cons addr v m) addr = v := by
  unfold Memory.cons
  split
  · next hv => rw [Memory.read_above h, hv]
  · simp [Memory.read]

theorem Memory.read_cons_ne {m : Memory} {addr a : Nat} (v : Byte) (h : a ≠ addr) :
    Memory.read (Memory.cons addr v m) a = Memory.read m a := by
  unfold Memory.cons
  split
  · rfl
  · simp [Memory.read, Ne.symm h]

theorem Memory.wf_cons {m : Memory} {addr : Nat} (v : Byte) (hm : Memory.wf m) (ha : addr < memSize)
    (h : Memory.Above addr m) : Memory.wf (Memory.cons addr v m) := by
  unfold Memory.cons
  split
  · exact hm
  · next hv =>
    refine ⟨List.pairwise_cons.2 ⟨h, hm.1⟩, fun c hc => ?_⟩
    rcases List.mem_cons.1 hc with rfl | hc
    · exact ⟨ha, hv⟩
    · exact hm.2 c hc

theorem Memory.above_write {m : Memory} {k addr : Nat} (v : Byte) (hk : k < addr) (h : Memory.Above k m) :
    Memory.Above k (Memory.write m addr v) := by
  have hcons : ∀ m', Memory.Above k m' → Memory.Above k (Memory.cons addr v m') := by
    intro m' h' c hc
    unfold Memory.cons at hc
    split at hc
    · exact h' c hc
    · rcases List.mem_cons.1 hc with rfl | hc
      · exact hk
      · exact h' c hc
  induction m with
  | nil => exact hcons [] h
  | cons c rest ih =>
    have hr : Memory.Above k rest := fun d hd => h d (List.mem_cons_of_mem _ hd)
    unfold Memory.write
    split
    · intro d hd
      rcases List.mem_cons.1 hd with rfl | hd
      · exact h _ (by simp)
      · exact ih hr d hd
    · split
      · exact hcons rest hr
      · exact hcons _ h

/-- A write keeps the canonical form. -/
theorem Memory.wf_write {m : Memory} {addr : Nat} (v : Byte) (hm : Memory.wf m) (ha : addr < memSize) :
    Memory.wf (Memory.write m addr v) := by
  induction m with
  | nil => exact Memory.wf_cons v hm ha (by simp [Memory.Above])
  | cons c rest ih =>
    have hr := Memory.wf_tail hm
    have habove := Memory.wf_above hm
    unfold Memory.write
    split
    · next hlt =>
      refine ⟨List.pairwise_cons.2 ⟨Memory.above_write v hlt habove, (ih hr).1⟩, fun d hd => ?_⟩
      rcases List.mem_cons.1 hd with rfl | hd
      · exact hm.2 _ (by simp)
      · exact (ih hr).2 d hd
    · next hge =>
      split
      · next heq => exact Memory.wf_cons v hr ha (heq ▸ habove)
      · next hne =>
        refine Memory.wf_cons v hm ha fun d hd => ?_
        have hc : addr < c.1 := by omega
        rcases List.mem_cons.1 hd with rfl | hd
        · exact hc
        · exact Nat.lt_trans hc (habove d hd)

/-- A read of the written address gives the value written. -/
theorem Memory.read_write_same {m : Memory} {addr : Nat} (v : Byte) (hm : Memory.wf m) :
    Memory.read (Memory.write m addr v) addr = v := by
  induction m with
  | nil => exact Memory.read_cons_same v (by simp [Memory.Above])
  | cons c rest ih =>
    have habove := Memory.wf_above hm
    unfold Memory.write
    split
    · next hlt => simp [Memory.read, Nat.ne_of_lt hlt, ih (Memory.wf_tail hm)]
    · next hge =>
      split
      · next heq => exact Memory.read_cons_same v (heq ▸ habove)
      · next hne =>
        refine Memory.read_cons_same v fun d hd => ?_
        have hc : addr < c.1 := by omega
        rcases List.mem_cons.1 hd with rfl | hd
        · exact hc
        · exact Nat.lt_trans hc (habove d hd)

/-- A write leaves every other address alone, whatever the form of the list. -/
theorem Memory.read_write_ne (m : Memory) {addr a : Nat} (v : Byte) (h : a ≠ addr) :
    Memory.read (Memory.write m addr v) a = Memory.read m a := by
  induction m with
  | nil => exact Memory.read_cons_ne v h
  | cons c rest ih =>
    unfold Memory.write
    split
    · simp [Memory.read, ih]
    · split
      · next heq =>
        rw [Memory.read_cons_ne v h]
        have : c.1 ≠ a := by omega
        simp [Memory.read, this]
      · exact Memory.read_cons_ne v h

/-! ## The primitives -/

theorem memRead_in {m : Memory} {addr : Int} (h0 : 0 ≤ addr) (h1 : addr ≤ 255) :
    memRead m addr = .ok (Memory.read m addr.toNat) := by
  simp [memRead]; omega

theorem memRead_out {m : Memory} {addr : Int} (h : addr < 0 ∨ 255 < addr) :
    memRead m addr = .error .addressOutOfRange := by
  simp [memRead, h]

theorem memWrite_in {m : Memory} {addr v : Int} (h0 : 0 ≤ addr) (h1 : addr ≤ 255) (hv0 : 0 ≤ v) (hv1 : v ≤ 255) :
    memWrite m addr v = .ok (Memory.write m addr.toNat (BitVec.ofInt 8 v)) := by
  have ha : ¬ (addr < 0 ∨ 255 < addr) := by omega
  have hv : ¬ (v < 0 ∨ 255 < v) := by omega
  simp [memWrite, ha, hv]

theorem memWrite_value_out {m : Memory} {addr v : Int} (h0 : 0 ≤ addr) (h1 : addr ≤ 255) (hv : v < 0 ∨ 255 < v) :
    memWrite m addr v = .error .cellRange := by
  have ha : ¬ (addr < 0 ∨ 255 < addr) := by omega
  simp [memWrite, ha, hv]

/-- Everything a write can do. -/
theorem memWrite_ok {m m' : Memory} {addr v : Int} (h : memWrite m addr v = .ok m') :
    0 ≤ addr ∧ addr ≤ 255 ∧ 0 ≤ v ∧ v ≤ 255 ∧ m' = Memory.write m addr.toNat (BitVec.ofInt 8 v) := by
  unfold memWrite at h
  split at h
  · cases h
  · split at h
    · cases h
    · injection h with h
      exact ⟨by omega, by omega, by omega, by omega, h.symm⟩

/-- A write keeps the canonical form. -/
theorem memWrite_wf {m m' : Memory} {addr v : Int} (hm : m.wf) (h : memWrite m addr v = .ok m') : m'.wf := by
  obtain ⟨h0, h1, -, -, rfl⟩ := memWrite_ok h
  exact Memory.wf_write _ hm (by simp only [memSize]; omega)

/-- A write leaves the read of every other address as it was. -/
theorem memRead_memWrite_ne {m m' : Memory} {addr v a : Int} (h : memWrite m addr v = .ok m') (hne : a ≠ addr) :
    memRead m' a = memRead m a := by
  obtain ⟨h0, h1, -, -, rfl⟩ := memWrite_ok h
  unfold memRead
  split
  · rfl
  · next ha => rw [Memory.read_write_ne m _ (by omega)]

/-- The written address reads as the value written. -/
theorem memRead_memWrite_same {m m' : Memory} {addr v : Int} (hm : m.wf) (h : memWrite m addr v = .ok m') :
    memRead m' addr = .ok (BitVec.ofInt 8 v) := by
  obtain ⟨h0, h1, -, -, rfl⟩ := memWrite_ok h
  rw [memRead_in h0 h1, Memory.read_write_same _ hm]

/-! ## Storing a sequence of bytes -/

theorem storeBytes_wf {m : Memory} (hm : m.wf) (addr : Nat) (bytes : List Byte) : (storeBytes m addr bytes).wf := by
  induction bytes generalizing m addr with
  | nil => exact hm
  | cons b rest ih =>
    unfold storeBytes
    split
    · next h => exact ih (Memory.wf_write b hm h) _
    · exact ih hm _

/-- Addresses below the stored ones read as before. -/
theorem read_storeBytes_below {m : Memory} {addr a : Nat} (bytes : List Byte) (h : a < addr) :
    Memory.read (storeBytes m addr bytes) a = Memory.read m a := by
  induction bytes generalizing m addr with
  | nil => rfl
  | cons b rest ih =>
    unfold storeBytes
    rw [ih (by omega)]
    split
    · exact Memory.read_write_ne m b (by omega)
    · rfl

/-- Addresses above the stored ones read as before. -/
theorem read_storeBytes_above {m : Memory} {addr a : Nat} (bytes : List Byte) (h : addr + bytes.length ≤ a) :
    Memory.read (storeBytes m addr bytes) a = Memory.read m a := by
  induction bytes generalizing m addr with
  | nil => rfl
  | cons b rest ih =>
    simp only [List.length_cons] at h
    unfold storeBytes
    rw [ih (by omega)]
    split
    · exact Memory.read_write_ne m b (by omega)
    · rfl

/-- Each stored byte is read back. -/
theorem read_storeBytes_at {m : Memory} (hm : m.wf) {addr k : Nat} (bytes : List Byte) (hk : k < bytes.length)
    (h : addr + bytes.length ≤ memSize) : Memory.read (storeBytes m addr bytes) (addr + k) = bytes[k] := by
  induction bytes generalizing m addr k with
  | nil => simp at hk
  | cons b rest ih =>
    simp only [List.length_cons] at h hk
    have hlt : addr < memSize := by omega
    simp only [storeBytes, hlt, if_true]
    cases k with
    | zero => rw [read_storeBytes_below rest (by omega)]; exact Memory.read_write_same b hm
    | succ k =>
      have := ih (Memory.wf_write b hm hlt) (k := k) (addr := addr + 1) (by omega) (by omega)
      rw [show addr + (k + 1) = addr + 1 + k by omega, this]
      rfl

end Sys2Proof.Machine
end

