-- ==== Sys2Proof/Laws/Ops.lean ====
section
/-! SUPPORT. Once for each shared operation, everything it can do; later proofs cite these and unfold nothing. -/

namespace Sys2Proof.Machine

/-! ## Register operands -/

@[simp] theorem reg_regByte (r : Fin 8) : reg (regByte r) = .ok r := by revert r; decide

theorem reg_bad {b : Byte} (h : 7 < b.toNat) : reg b = .error .badRegister := by
  have : ¬ b.toNat < 8 := by omega
  simp [reg, this]

/-- Everything the register check can do. -/
theorem reg_cases (b : Byte) :
    (b.toNat < 8 ∧ ∃ r : Fin 8, b = regByte r ∧ reg b = .ok r) ∨ (7 < b.toNat ∧ reg b = .error .badRegister) := by
  by_cases h : b.toNat < 8
  · refine .inl ⟨h, ⟨b.toNat, h⟩, ?_, by simp [reg, h]⟩
    simp [regByte]
  · exact .inr ⟨by omega, reg_bad (by omega)⟩

theorem regByte_toNat (r : Fin 8) : (regByte r).toNat = r.val := by revert r; decide

theorem regByte_inj {r q : Fin 8} (h : regByte r = regByte q) : r = q := by
  have := congrArg BitVec.toNat h
  rw [regByte_toNat, regByte_toNat] at this
  exact Fin.ext this

/-! ## Instruction forms -/

@[simp] theorem finish_ok (s t : State) : s.finish (.ok t) = .next t := rfl
@[simp] theorem finish_error (s : State) (k : AbortKind) : s.finish (.error k) = .next (s.abort k) := rfl

@[simp] theorem ruleR_regByte (r : Fin 8) (s : State) (body : Fin 8 → Except AbortKind State) :
    ruleR (regByte r) s body = s.finish (body r) := by
  simp [ruleR, bind, Except.bind]

theorem ruleR_bad {a : Byte} (h : 7 < a.toNat) (s : State) (body : Fin 8 → Except AbortKind State) :
    ruleR a s body = .next (s.abort .badRegister) := by
  simp [ruleR, reg_bad h, bind, Except.bind]

@[simp] theorem ruleRR_regByte (p q : Fin 8) (s : State) (body : Fin 8 → Fin 8 → Except AbortKind State) :
    ruleRR (regByte p) (regByte q) s body = s.finish (body p q) := by
  simp [ruleRR, bind, Except.bind]

theorem ruleRR_bad {a b : Byte} (h : 7 < a.toNat ∨ 7 < b.toNat) (s : State)
    (body : Fin 8 → Fin 8 → Except AbortKind State) : ruleRR a b s body = .next (s.abort .badRegister) := by
  rcases reg_cases a with ⟨ha, ra, -, hra⟩ | ⟨-, hra⟩
  · simp [ruleRR, hra, reg_bad (h.resolve_left (by omega)), bind, Except.bind]
  · simp [ruleRR, hra, bind, Except.bind]

/-- A two-register ALU instruction whose operation gives a value writes it to x[a] and moves pc by 3. -/
theorem aluRR_ok {op : Int → Int → Except AbortKind Int} {p q : Fin 8} {s : State} {v : Int}
    (h : op (s.reg p) (s.reg q) = .ok v) :
    aluRR op (regByte p) (regByte q) s = .next ((s.setReg p v).advance 3) := by
  simp [aluRR, h, bind, Except.bind, pure, Except.pure]

/-- A two-register ALU instruction whose operation stops, stops. -/
theorem aluRR_error {op : Int → Int → Except AbortKind Int} {p q : Fin 8} {s : State} {k : AbortKind}
    (h : op (s.reg p) (s.reg q) = .error k) : aluRR op (regByte p) (regByte q) s = .next (s.abort k) := by
  simp [aluRR, h, bind, Except.bind]

theorem aluRR_bad {op : Int → Int → Except AbortKind Int} {a b : Byte} (h : 7 < a.toNat ∨ 7 < b.toNat) (s : State) :
    aluRR op a b s = .next (s.abort .badRegister) := ruleRR_bad h s _

/-- Everything a two-register ALU instruction can do. -/
theorem aluRR_cases (op : Int → Int → Except AbortKind Int) (a b : Byte) (s : State) :
    ((7 < a.toNat ∨ 7 < b.toNat) ∧ aluRR op a b s = .next (s.abort .badRegister)) ∨
    ∃ p q : Fin 8, a = regByte p ∧ b = regByte q ∧
      ((∃ k, op (s.reg p) (s.reg q) = .error k ∧ aluRR op a b s = .next (s.abort k)) ∨
        ∃ v, op (s.reg p) (s.reg q) = .ok v ∧ aluRR op a b s = .next ((s.setReg p v).advance 3)) := by
  rcases reg_cases a with ⟨-, p, rfl, -⟩ | ⟨ha, -⟩
  · rcases reg_cases b with ⟨-, q, rfl, -⟩ | ⟨hb, -⟩
    · refine .inr ⟨p, q, rfl, rfl, ?_⟩
      cases h : op (s.reg p) (s.reg q) with
      | error k => exact .inl ⟨k, rfl, aluRR_error h⟩
      | ok v => exact .inr ⟨v, rfl, aluRR_ok h⟩
    · exact .inl ⟨.inr hb, aluRR_bad (.inr hb) s⟩
  · exact .inl ⟨.inl ha, aluRR_bad (.inl ha) s⟩

/-! ## Arithmetic -/

theorem mask_nonneg (v : Int) : 0 ≤ mask v := Int.emod_nonneg v (by decide)

theorem mask_le (v : Int) : mask v ≤ 255 := Int.le_of_lt_add_one (Int.emod_lt_of_pos v (by decide))

theorem mask_of_byte {v : Int} (h0 : 0 ≤ v) (h1 : v ≤ 255) : mask v = v := Int.emod_eq_of_lt h0 (by omega)

theorem zext8_nonneg (b : Byte) : 0 ≤ zext8 b := by simp [zext8]

theorem zext8_le (b : Byte) : zext8 b ≤ 255 := by
  have := b.isLt
  simp only [zext8]; omega

@[simp] theorem zext8_ofInt {v : Int} (h0 : 0 ≤ v) (h1 : v ≤ 255) : zext8 (BitVec.ofInt 8 v) = v := by
  simp only [zext8, BitVec.toNat_ofInt]; omega

/-! ## The push -/

theorem pushedSp_nonneg (s : State) : 0 ≤ s.pushedSp := mask_nonneg _

theorem pushedSp_le (s : State) : s.pushedSp ≤ 255 := mask_le _

/-- A byte is pushed: SP moves down and the cell there holds it. -/
theorem push_ok (s : State) {v : Int} (h0 : 0 ≤ v) (h1 : v ≤ 255) :
    s.push v = .ok ((s.setReg spIndex s.pushedSp).setMem
      (Memory.write s.mem s.pushedSp.toNat (BitVec.ofInt 8 v))) := by
  simp [State.push, memWrite_in (pushedSp_nonneg s) (pushedSp_le s) h0 h1, bind, Except.bind, pure, Except.pure]

/-- A value that is no byte is not pushed (20_memory.md R63). -/
theorem push_error (s : State) {v : Int} (h : v < 0 ∨ 255 < v) : s.push v = .error .cellRange := by
  simp [State.push, memWrite_value_out (pushedSp_nonneg s) (pushedSp_le s) h, bind, Except.bind]

/-! ## Fetch and step -/

/-- A running core whose pc is no fetch address stops. -/
theorem fetch_out {s : State} (hr : s.run = .running) (h : s.pc < 0 ∨ 253 < s.pc) :
    fetch s = .stopped (s.abort .addressOutOfRange) := by
  have hb : fetchBytes s = .error .addressOutOfRange := by
    unfold fetchBytes
    by_cases h0 : s.pc < 0 ∨ 255 < s.pc
    · simp [memRead_out h0, bind, Except.bind]
    · by_cases h1 : 255 < s.pc + 1
      · simp [memRead_in (m := s.mem) (addr := s.pc) (by omega) (by omega), memRead_out (.inr h1), bind, Except.bind]
      · simp [memRead_in (m := s.mem) (addr := s.pc) (by omega) (by omega),
          memRead_in (m := s.mem) (addr := s.pc + 1) (by omega) (by omega),
          memRead_out (m := s.mem) (addr := s.pc + 2) (by omega), bind, Except.bind]
  simp [fetch, hr, fetchRunning, hb]

/-- The fetch of a running core whose pc is a fetch address: three reads and the decoding. -/
theorem fetch_in {s : State} (hr : s.run = .running) (h0 : 0 ≤ s.pc) (h1 : s.pc ≤ 253) :
    fetch s = match decode s.params.opcodes (s.mem.read s.pc.toNat) (s.mem.read (s.pc + 1).toNat)
        (s.mem.read (s.pc + 2).toNat) with
      | .error _ => .stopped (s.faultOn (s.mem.read s.pc.toNat))
      | .ok i => .instr i := by
  have hb : fetchBytes s =
      .ok (s.mem.read s.pc.toNat, s.mem.read (s.pc + 1).toNat, s.mem.read (s.pc + 2).toNat) := by
    simp [fetchBytes, memRead_in (m := s.mem) (addr := s.pc) (by omega) (by omega),
      memRead_in (m := s.mem) (addr := s.pc + 1) (by omega) (by omega),
      memRead_in (m := s.mem) (addr := s.pc + 2) (by omega) (by omega), bind, Except.bind, pure, Except.pure]
  cases hd : decode s.params.opcodes (s.mem.read s.pc.toNat) (s.mem.read (s.pc + 1).toNat)
      (s.mem.read (s.pc + 2).toNat) <;>
    simp [fetch, hr, fetchRunning, hb, hd]

theorem step_of_instr {s : State} {i : Instr} (h : fetch s = .instr i) : step s = exec i s := by simp [step, h]

theorem step_of_stopped {s t : State} (h : fetch s = .stopped t) : step s = .next t := by simp [step, h]

theorem step_of_ended {s : State} (h : s.run ≠ .running) : step s = .fault (.terminal s.run) := by
  unfold step fetch
  cases hr : s.run <;> simp_all

/-- Everything a step of a running core can do: a fetch out of range, an unknown opcode, or one instruction. -/
theorem step_cases {s : State} (hr : s.run = .running) :
    ((s.pc < 0 ∨ 253 < s.pc) ∧ step s = .next (s.abort .addressOutOfRange)) ∨
    (0 ≤ s.pc ∧ s.pc ≤ 253 ∧
      ((∃ op, s.params.opcodes.lookup op = none ∧ s.mem.read s.pc.toNat = op ∧ step s = .next (s.faultOn op)) ∨
        ∃ i, decode s.params.opcodes (s.mem.read s.pc.toNat) (s.mem.read (s.pc + 1).toNat)
          (s.mem.read (s.pc + 2).toNat) = .ok i ∧ step s = exec i s)) := by
  by_cases h : s.pc < 0 ∨ 253 < s.pc
  · exact .inl ⟨h, step_of_stopped (fetch_out hr h)⟩
  · refine .inr ⟨by omega, by omega, ?_⟩
    have hf := fetch_in hr (by omega) (by omega)
    cases hl : s.params.opcodes.lookup (s.mem.read s.pc.toNat) with
    | none =>
      refine .inl ⟨_, hl, rfl, step_of_stopped ?_⟩
      rw [hf]; simp [decode, hl]
    | some n =>
      have hd : decode s.params.opcodes (s.mem.read s.pc.toNat) (s.mem.read (s.pc + 1).toNat)
          (s.mem.read (s.pc + 2).toNat) =
          .ok (Instr.ofBytes n (s.mem.read (s.pc + 1).toNat) (s.mem.read (s.pc + 2).toNat)) := by
        simp [decode, hl]
      exact .inr ⟨_, hd, step_of_instr (by rw [hf, hd])⟩

end Sys2Proof.Machine
end

