-- ==== Sys2Proof/Laws/Arith.lean ====
section
/-! SUPPORT. The integer operations against library ones: remainders, and bitwise operations as two's complement
(00_scope.md R9, R10). -/

namespace Sys2Proof.Machine

theorem floormod_eq_fmod (p q : Int) : floormod p q = Int.fmod p q := by
  have := Int.mul_fdiv_add_fmod p q
  unfold floormod floordiv
  omega

/-- `mask` reads the 8-bit pattern as an unsigned number (00_scope.md R9). -/
theorem mask_eq_zext8 (v : Int) : mask v = zext8 (BitVec.ofInt 8 v) := by
  simp only [mask, zext8, BitVec.toNat_ofInt]
  omega

theorem natDiff_eq_ldiff (m n : Nat) : natDiff m n = Nat.ldiff m n := by
  refine Nat.eq_of_testBit_eq fun i => ?_
  simp only [natDiff, Nat.testBit_xor, Nat.testBit_and, Nat.testBit_ldiff]
  cases m.testBit i <;> cases n.testBit i <;> rfl

theorem bitAnd_eq_land (p q : Int) : bitAnd p q = Int.land p q := by
  cases p <;> cases q <;> simp [bitAnd, Int.land, natDiff_eq_ldiff]

theorem bitOr_eq_lor (p q : Int) : bitOr p q = Int.lor p q := by
  cases p <;> cases q <;> simp [bitOr, Int.lor, natDiff_eq_ldiff]

theorem bitXor_eq_xor (p q : Int) : bitXor p q = Int.xor p q := by
  cases p <;> cases q <;> simp [bitXor, Int.xor]

/-- Bit k of the 8-bit pattern of an integer. -/
theorem ofInt_getLsbD (p : Int) {k : Nat} (h : k < 8) : (BitVec.ofInt 8 p).getLsbD k = Int.testBit p k := by
  cases p with
  | ofNat m =>
    have : (Int.ofNat m % ((2 ^ 8 : Nat) : Int)).toNat = m % 2 ^ 8 := by
      rw [Int.ofNat_eq_natCast]; omega
    simp only [BitVec.getLsbD, Int.testBit, BitVec.toNat_ofInt, this, Nat.testBit_mod_two_pow, h, decide_true,
      Bool.true_and]
  | negSucc m =>
    have : (Int.negSucc m % ((2 ^ 8 : Nat) : Int)).toNat = 2 ^ 8 - (m % 2 ^ 8 + 1) := by
      rw [Int.negSucc_eq]; omega
    simp only [BitVec.getLsbD, Int.testBit, BitVec.toNat_ofInt, this,
      Nat.testBit_two_pow_sub_succ (Nat.mod_lt m (show 0 < 2 ^ 8 by decide)), Nat.testBit_mod_two_pow, h, decide_true,
      Bool.true_and]

theorem ofInt_bitAnd (p q : Int) : BitVec.ofInt 8 (bitAnd p q) = BitVec.ofInt 8 p &&& BitVec.ofInt 8 q := by
  refine BitVec.eq_of_getLsbD_eq fun i hi => ?_
  simp only [BitVec.getLsbD_and, ofInt_getLsbD _ hi, bitAnd_eq_land, Int.testBit_land]

theorem ofInt_bitOr (p q : Int) : BitVec.ofInt 8 (bitOr p q) = BitVec.ofInt 8 p ||| BitVec.ofInt 8 q := by
  refine BitVec.eq_of_getLsbD_eq fun i hi => ?_
  simp only [BitVec.getLsbD_or, ofInt_getLsbD _ hi, bitOr_eq_lor, Int.testBit_lor]

theorem ofInt_bitXor (p q : Int) : BitVec.ofInt 8 (bitXor p q) = BitVec.ofInt 8 p ^^^ BitVec.ofInt 8 q := by
  refine BitVec.eq_of_getLsbD_eq fun i hi => ?_
  simp only [BitVec.getLsbD_xor, ofInt_getLsbD _ hi, bitXor_eq_xor, Int.testBit_lxor]

end Sys2Proof.Machine
end

