-- ==== Sys2Proof/Laws/Exec.lean ====
section
/-! SUPPORT. What each instruction's meaning is on registers, in the model's own operations: the equations later proofs
rewrite with instead of unfolding `exec`. -/

namespace Sys2Proof.Machine

variable (s : State) (a b : Fin 8)

/-! ## ALU instructions -/

theorem exec_add : exec (.add (regByte a) (regByte b)) s =
    .next ((s.setReg a (aluAdd (s.reg a) (s.reg b))).advance 3) :=
  aluRR_ok (op := fun va vb => .ok (aluAdd va vb)) rfl

theorem exec_sub : exec (.sub (regByte a) (regByte b)) s =
    .next ((s.setReg a (aluSub (s.reg a) (s.reg b))).advance 3) :=
  aluRR_ok (op := fun va vb => .ok (aluSub va vb)) rfl

theorem exec_mul : exec (.mul (regByte a) (regByte b)) s =
    .next ((s.setReg a (aluMul (s.reg a) (s.reg b))).advance 3) :=
  aluRR_ok (op := fun va vb => .ok (aluMul va vb)) rfl

theorem exec_and : exec (.and (regByte a) (regByte b)) s =
    .next ((s.setReg a (aluAnd (s.reg a) (s.reg b))).advance 3) :=
  aluRR_ok (op := fun va vb => .ok (aluAnd va vb)) rfl

theorem exec_or : exec (.or (regByte a) (regByte b)) s =
    .next ((s.setReg a (aluOr (s.reg a) (s.reg b))).advance 3) :=
  aluRR_ok (op := fun va vb => .ok (aluOr va vb)) rfl

theorem exec_xor : exec (.xor (regByte a) (regByte b)) s =
    .next ((s.setReg a (aluXor (s.reg a) (s.reg b))).advance 3) :=
  aluRR_ok (op := fun va vb => .ok (aluXor va vb)) rfl

theorem exec_not : exec (.not (regByte a)) s =
    .next ((s.setReg a (aluNot s.params.maskMode (s.reg a))).advance 2) := by
  simp [exec, execNot]

theorem exec_cmp : exec (.cmp (regByte a) (regByte b)) s =
    .next ((s.setFl (compareFlags (s.reg a) (s.reg b) s.fl)).advance 3) := by
  simp [exec, execCmp]

/-- FL after a comparison: exactly one bit, whatever FL was (40_alu.md R112). -/
theorem compareFlags_eq (va vb : Int) (fl : FlagBits) :
    compareFlags va vb fl = if va = vb then 0b001 else if va > vb then 0b010 else 0b100 := by
  unfold compareFlags
  by_cases h1 : va = vb
  · simp [h1]
  · by_cases h2 : va > vb
    · simp [h1, h2, Int.not_lt.2 (Int.le_of_lt h2)]
    · simp [h1, h2, show va < vb by omega]

/-! ## Handlers -/

theorem exec_ldi (imm : Byte) : exec (.ldi (regByte a) imm) s =
    .next ((s.setReg a (zext8 imm)).advance 3) := by
  simp [exec, execLdi]

theorem exec_prn : exec (.prn (regByte a)) s = .next ((s.emit (s.reg a)).advance 2) := by
  simp [exec, execPrn]

/-- The value PUSH stores: the decremented SP for R7, the register otherwise (41_handlers.md R144). -/
theorem pushed_value : (s.setReg spIndex s.pushedSp).reg a = if a = 7 then s.pushedSp else s.reg a :=
  setReg_reg s spIndex a s.pushedSp

theorem exec_push_ok {v : Int} (hv : v = if a = 7 then s.pushedSp else s.reg a) (h0 : 0 ≤ v) (h1 : v ≤ 255) :
    exec (.push (regByte a)) s = .next (((s.setReg spIndex s.pushedSp).setMem
      (Memory.write s.mem s.pushedSp.toNat (BitVec.ofInt 8 v))).advance 2) := by
  subst hv
  simp [exec, execPush, pushed_value, push_ok s h0 h1, bind, Except.bind, pure, Except.pure]

theorem exec_push_error {v : Int} (hv : v = if a = 7 then s.pushedSp else s.reg a) (h : v < 0 ∨ 255 < v) :
    exec (.push (regByte a)) s = .next (s.abort .cellRange) := by
  subst hv
  simp [exec, execPush, pushed_value, push_error s h, bind, Except.bind]

theorem exec_pop_ok {v : Byte} (h : memRead s.mem (s.reg 7) = .ok v) : exec (.pop (regByte a)) s =
    .next ((((s.setReg a (zext8 v)).setReg spIndex (mask ((s.setReg a (zext8 v)).reg spIndex + 1)))).advance 2) := by
  simp [exec, execPop, spIndex, h, bind, Except.bind, pure, Except.pure]

theorem exec_pop_error (h : s.reg 7 < 0 ∨ 255 < s.reg 7) :
    exec (.pop (regByte a)) s = .next (s.abort .addressOutOfRange) := by
  simp [exec, execPop, spIndex, memRead_out h, bind, Except.bind]

theorem exec_call_ok (h0 : 0 ≤ s.pc + 2) (h1 : s.pc + 2 ≤ 255) : exec (.call (regByte a)) s =
    .next (((s.setReg spIndex s.pushedSp).setMem (Memory.write s.mem s.pushedSp.toNat
      (BitVec.ofInt 8 (s.pc + 2)))).setPc (if a = 7 then s.pushedSp else s.reg a)) := by
  simp [exec, execCall, push_ok s h0 h1, bind, Except.bind, pure, Except.pure, pushed_value]

theorem exec_call_error (h : s.pc + 2 < 0 ∨ 255 < s.pc + 2) :
    exec (.call (regByte a)) s = .next (s.abort .cellRange) := by
  simp [exec, execCall, push_error s h, bind, Except.bind]

theorem exec_ret_ok {v : Byte} (h : memRead s.mem (s.reg 7) = .ok v) :
    exec .ret s = .next ((s.setPc (zext8 v)).setReg spIndex (mask (s.reg 7 + 1))) := by
  simp [exec, execRet, spIndex, h, bind, Except.bind, pure, Except.pure]

theorem exec_ret_error (h : s.reg 7 < 0 ∨ 255 < s.reg 7) : exec .ret s = .next (s.abort .addressOutOfRange) := by
  simp [exec, execRet, spIndex, memRead_out h, bind, Except.bind]

theorem exec_hlt : exec .hlt s = .next (s.setRun .halted) := rfl

end Sys2Proof.Machine
end

