-- ==== Sys2Proof/Laws/PerInstr.lean ====
section
/-! SUPPORT. Laws of every instruction as syntax, one lemma for each constructor. -/

/-- The encoding of an instruction is its opcode byte and as many bytes in all as its width (30_encoding.md R71, R77). -/
def Sys2Proof.Laws.EncodedWidth.Statement (i : Sys2Proof.Instr) : Prop :=
  ∀ m : Sys2Proof.OpcodeMap,
    (Sys2Proof.encode m i).head? = some (m.byte i.mnemonic) ∧ (Sys2Proof.encode m i).length = i.width

namespace Sys2Proof.Laws.EncodedWidth

theorem hlt : Statement (.hlt) := fun _ => ⟨rfl, rfl⟩
theorem ret : Statement (.ret) := fun _ => ⟨rfl, rfl⟩
theorem push (a : Byte) : Statement (.push a) := fun _ => ⟨rfl, rfl⟩
theorem pop (a : Byte) : Statement (.pop a) := fun _ => ⟨rfl, rfl⟩
theorem prn (a : Byte) : Statement (.prn a) := fun _ => ⟨rfl, rfl⟩
theorem call (a : Byte) : Statement (.call a) := fun _ => ⟨rfl, rfl⟩
theorem not (a : Byte) : Statement (.not a) := fun _ => ⟨rfl, rfl⟩
theorem ldi (a imm : Byte) : Statement (.ldi a imm) := fun _ => ⟨rfl, rfl⟩
theorem add (a b : Byte) : Statement (.add a b) := fun _ => ⟨rfl, rfl⟩
theorem sub (a b : Byte) : Statement (.sub a b) := fun _ => ⟨rfl, rfl⟩
theorem mul (a b : Byte) : Statement (.mul a b) := fun _ => ⟨rfl, rfl⟩
theorem div (a b : Byte) : Statement (.div a b) := fun _ => ⟨rfl, rfl⟩
theorem mod (a b : Byte) : Statement (.mod a b) := fun _ => ⟨rfl, rfl⟩
theorem cmp (a b : Byte) : Statement (.cmp a b) := fun _ => ⟨rfl, rfl⟩
theorem and (a b : Byte) : Statement (.and a b) := fun _ => ⟨rfl, rfl⟩
theorem or (a b : Byte) : Statement (.or a b) := fun _ => ⟨rfl, rfl⟩
theorem xor (a b : Byte) : Statement (.xor a b) := fun _ => ⟨rfl, rfl⟩
theorem shl (a b : Byte) : Statement (.shl a b) := fun _ => ⟨rfl, rfl⟩
theorem shr (a b : Byte) : Statement (.shr a b) := fun _ => ⟨rfl, rfl⟩

end Sys2Proof.Laws.EncodedWidth
end

