-- ==== Sys2Proof/Tests/Slice0.lean ====
section
/-! SUPPORT. Tests of one step on small states, with results taken from 95_test_vectors.md (the vector's id is named), and
a witness for the hypotheses of every statement that has any. -/

namespace Sys2Proof.Tests

open Sys2Proof Sys2Proof.Machine

/-! ## Helpers -/

/-- FIXED and FLOOR, COMPAT and FLOOR, COMPAT and TRUNC, FIXED and ABORT. -/
def fixedFloor : Params := resetParams
def compatFloor : Params := { resetParams with maskMode := .compat }
def compatTrunc : Params := { compatFloor with divMode := .trunc }
def fixedAbort : Params := { resetParams with divMode := .abort }

/-- The reset state with parameters, three registers and a program's bytes at address 0. -/
def start (p : Params) (x0 x1 sp : Int) (bytes : List Byte) : State :=
  let s := State.resetWith p sp
  ((s.setReg 0 x0).setReg 1 x1).setMem (storeBytes s.mem 0 bytes)

/-- The state after one step, if there is one. -/
def after (s : State) : Option State :=
  match step s with
  | .next t => some t
  | _ => none

/-- What one step leaves of x[0] and pc. -/
def x0pc (s : State) : Option (Int × Int) := (after s).map fun t => (t.reg 0, t.pc)

/-- How one step ends the run. -/
def ending (s : State) : Option RunState := (after s).map (·.run)

/-! ## Well-formedness and decoding -/

/-- Each register operand's check refuses a byte above 7. -/
theorem test_wf_refuses :
    [Instr.push 8, .pop 8, .prn 8, .call 8, .not 8, .ldi 8 0, .add 8 0, .add 0 8, .sub 8 0, .sub 0 8, .mul 8 0, .mul 0 8,
      .div 8 0, .div 0 8, .mod 8 0, .mod 0 8, .cmp 8 0, .cmp 0 8, .and 8 0, .and 0 8, .or 8 0, .or 0 8, .xor 8 0,
      .xor 0 8, .shl 8 0, .shl 0 8, .shr 8 0, .shr 0 255].all (fun i => i.wf == false) = true := by decide

/-- The immediate of LDI and the operands 0..7 are accepted. -/
theorem test_wf_accepts :
    [Instr.hlt, .ret, .push 7, .pop 0, .prn 7, .call 7, .not 7, .ldi 7 255, .add 7 7, .shr 0 7].all Instr.wf = true := by
  decide

/-- One word of every instruction, its opcode byte from the table of 30_encoding.md R75 and its operand bytes from the
formats of R71: the first byte stands last, in bits 7..0. -/
theorem test_decode_every_row :
    [(8, 0b00000001), (8, 0b00010001), (16, 0b00000010_01000101), (16, 0b00000001_01000110), (16, 0b00000111_01000111),
      (16, 0b00000011_01010000), (16, 0b00000101_01101001), (24, 0b11111111_00000111_10000010),
      (24, 0b00000001_00000000_10100000), (24, 0b00000011_00000010_10100001), (24, 0b00000111_00000110_10100010),
      (24, 0b00000001_00000010_10100011), (24, 0b00000101_00000100_10100100), (24, 0b00000000_00000001_10100111),
      (24, 0b00000011_00000001_10101000), (24, 0b00000010_00000101_10101010), (24, 0b00000110_00000000_10101011),
      (24, 0b00000100_00000011_10101100), (24, 0b00000111_00000001_10101101)].map (fun (n, w) => decodeTableWord n w) =
    [some .hlt, some .ret, some (.push 2), some (.pop 1), some (.prn 7), some (.call 3), some (.not 5),
      some (.ldi 7 255), some (.add 0 1), some (.sub 2 3), some (.mul 6 7), some (.div 2 1), some (.mod 4 5),
      some (.cmp 1 0), some (.and 1 3), some (.or 5 2), some (.xor 0 6), some (.shl 3 4), some (.shr 1 7)] := by decide

/-- 0x00 and the LS-8 jump are no instructions (vectors X1, X2). -/
theorem test_decode_unknown :
    decode OpcodeMap.ls8 0x00 0 0 = .error (.unknownOpcode 0x00) ∧
    decode OpcodeMap.ls8 0x54 0 0 = .error (.unknownOpcode 0x54) := ⟨rfl, rfl⟩

/-- Another injective OPCODE map decodes by its own bytes (R75: OPCODE is a parameter). -/
theorem test_decode_other_map :
    OpcodeMap.Valid { OpcodeMap.ls8 with ret := 0x12 } ∧
    decode { OpcodeMap.ls8 with ret := 0x12 } 0x12 0 0 = .ok .ret ∧
    decode { OpcodeMap.ls8 with ret := 0x12 } 0x11 0 0 = .error (.unknownOpcode 0x11) := ⟨by decide, rfl, rfl⟩

/-- Every row's word placed at the fetch address of the reset state is executed by the next step. -/
theorem test_rows_run_after_reset :
    [(8, 0x01), (8, 0x11), (16, 0x45), (16, 0x46), (16, 0x47), (16, 0x50), (16, 0x69), (24, 0x82), (24, 0xA0), (24, 0xA1),
      (24, 0xA2), (24, 0xA3), (24, 0xA4), (24, 0xA7), (24, 0xA8), (24, 0xAA), (24, 0xAB), (24, 0xAC), (24, 0xAD)].map
      (fun (n, w) => (after (State.reset.withFetchWord n w)).map (·.pc)) =
    [some 0, some 17, some 2, some 2, some 2, some 0, some 2, some 3, some 3, some 3, some 3, some 0, some 0, some 3, some 3,
      some 3, some 3, some 3, some 3] := by decide

/-! ## ALU instructions (40_alu.md) -/

theorem test_add_wraps : x0pc (start fixedFloor 200 100 0 [0xA0, 0, 1]) = some (44, 3) := by decide      -- V2
theorem test_add_same_register : x0pc (start fixedFloor 128 0 0 [0xA0, 0, 0]) = some (0, 3) := by decide -- V4
theorem test_sub_wraps : x0pc (start fixedFloor 3 5 0 [0xA1, 0, 1]) = some (254, 3) := by decide         -- V6
theorem test_mul_keeps_low_byte : x0pc (start fixedFloor 255 255 0 [0xA2, 0, 1]) = some (1, 3) := by decide -- V12
theorem test_div_floor_compat : x0pc (start compatFloor (-1) 2 0 [0xA3, 0, 1]) = some (255, 3) := by decide -- M9
theorem test_div_trunc_compat : x0pc (start compatTrunc (-1) 2 0 [0xA3, 0, 1]) = some (0, 3) := by decide   -- M9
theorem test_div_by_zero :
    ending (start fixedAbort 5 0 0 [0xA3, 0, 1]) = some (.aborted .divideByZero 0) := by decide             -- V18
theorem test_div_undefined :
    ending (start fixedAbort 7 2 0 [0xA3, 0, 1]) = some (.aborted .divUndefined 0) := by decide             -- V19
theorem test_mod_fixed : x0pc (start fixedFloor 255 16 0 [0xA4, 0, 1]) = some (15, 3) := by decide       -- V22
theorem test_mod_sign_of_divisor : x0pc (start compatFloor 5 (-3) 0 [0xA4, 0, 1]) = some (-1, 3) := by decide -- M6
theorem test_and : x0pc (start fixedFloor 0xF0 0x3C 0 [0xA8, 0, 1]) = some (0x30, 3) := by decide        -- V27
theorem test_or : x0pc (start fixedFloor 0xF0 0x0F 0 [0xAA, 0, 1]) = some (0xFF, 3) := by decide         -- V29
theorem test_xor : x0pc (start fixedFloor 0xFF 0x0F 0 [0xAB, 0, 1]) = some (0xF0, 3) := by decide        -- V30
theorem test_not_fixed_ignores_byte : x0pc (start fixedFloor 7 0 0 [0x69, 0, 9]) = some (248, 2) := by decide -- V35
theorem test_not_compat : x0pc (start compatFloor 255 0 0 [0x69, 0]) = some (-256, 2) := by decide       -- M3
theorem test_shl_by_width : x0pc (start fixedFloor 1 8 0 [0xAC, 0, 1]) = some (0, 3) := by decide        -- V39
theorem test_shl_negative_count :
    ending (start compatFloor 1 (-1) 0 [0xAC, 0, 1]) = some (.aborted .negativeShift 0) := by decide        -- M13
theorem test_shr_logical : x0pc (start fixedFloor 0xFF 4 0 [0xAD, 0, 1]) = some (0x0F, 3) := by decide   -- V40b
theorem test_shr_floor_compat : x0pc (start compatFloor (-16) 2 0 [0xAD, 0, 1]) = some (252, 3) := by decide -- M8
theorem test_cmp_unsigned_overwrites :
    (after ((start fixedFloor 0 255 0 [0xA7, 0, 1]).setFl 0b001)).map (·.fl) = some 0b100 := by decide      -- V44
theorem test_cmp_greater : (after (start fixedFloor 6 5 0 [0xA7, 0, 1])).map (·.fl) = some 0b010 := by decide -- V42

/-! ## Handlers (41_handlers.md) -/

theorem test_ldi_sets_sp : (after (start fixedFloor 0 0 0 [0x82, 7, 0xF4])).map (fun t => (t.reg 7, t.pc)) =
    some (0xF4, 3) := by decide                                                                              -- K2
theorem test_prn_appends : (after (start fixedFloor 8 0 0 [0x47, 0, 0xFF])).map (fun t => (t.out, t.pc)) =
    some ([8], 2) := by decide                                                                               -- K3, X10
theorem test_prn_negative : (after (start compatFloor (-1) 0 0 [0x47, 0])).map (·.out) = some [-1] := by decide -- M11
theorem test_hlt_ignores_bytes : (after (start fixedFloor 0 0 0 [0x01, 0xFF, 0xFF])).map (fun t => (t.run, t.pc)) =
    some (.halted, 0) := by decide                                                                           -- K4, X11
theorem test_push_wraps : (after (start fixedFloor 42 0 0 [0x45, 0])).map (fun t => (t.reg 7, t.mem.read 255, t.pc)) =
    some (255, 42, 2) := by decide                                                                           -- K5
theorem test_push_sp : (after (start fixedFloor 0 0 0x10 [0x45, 7])).map (fun t => (t.reg 7, t.mem.read 0x0F)) =
    some (0x0F, 0x0F) := by decide                                                                           -- K6
theorem test_push_cell_range :
    ending (start compatFloor (-1) 0 0 [0x45, 0]) = some (.aborted .cellRange 0) := by decide                -- M12
theorem test_pop_at_reset : (after (start fixedFloor 0 0 0 [0x46, 0])).map (fun t => (t.reg 0, t.reg 7, t.pc)) =
    some (0x46, 1, 2) := by decide                                                                           -- K8
theorem test_pop_sp : (after (start fixedFloor 0 0 2 [0x46, 7, 0x50])).map (·.reg 7) = some 0x51 := by decide -- K7 at 2
theorem test_pop_out_of_range :
    ending (start compatFloor 0 0 (-1) [0x46, 0]) = some (.aborted .addressOutOfRange 0) := by decide        -- M14
theorem test_call_pushes_return :
    (after (start fixedFloor 0 16 0 [0x50, 1])).map (fun t => (t.reg 7, t.mem.read 255, t.pc)) =
    some (255, 2, 16) := by decide                                                                           -- K9 at 0
theorem test_call_sp : (after (start fixedFloor 0 0 0x20 [0x50, 7])).map (fun t => (t.reg 7, t.mem.read 0x1F, t.pc)) =
    some (0x1F, 2, 0x1F) := by decide                                                                        -- K10 at 0
theorem test_ret_at_reset : (after (start fixedFloor 0 0 0 [0x11])).map (fun t => (t.reg 7, t.pc)) =
    some (1, 0x11) := by decide                                                                              -- K12
theorem test_ret_wraps_sp : (after (start fixedFloor 0 0 255 [0x11])).map (fun t => (t.reg 7, t.pc)) =
    some (0, 0) := by decide                                                                                 -- K11, Mem[255] = 0

/-! ## Fetch, stops, load and text -/

theorem test_fetch_at_253 :
    ending ((start fixedFloor 0 0 0 []).setMem (storeBytes [] 253 [0x01]) |>.setPc 253) = some .halted := by decide -- X3
theorem test_fetch_at_254 :
    ending ((start fixedFloor 0 0 0 []).setPc 254) = some (.aborted .addressOutOfRange 254) := by decide            -- X5
theorem test_reset_empty_image : ending State.reset = some (.faulted 0x00 0) := by decide                           -- RS1
theorem test_bad_register_before_divisor :
    ending (start fixedFloor 0 0 0 [0xA3, 9, 1]) = some (.aborted .badRegister 0) := by decide                      -- X8
theorem test_unknown_before_register :
    ending (start fixedFloor 0 0 0 [0xFF, 9, 9]) = some (.faulted 0xFF 0) := by decide                              -- X9
theorem test_ended_has_no_step : after (State.reset.setRun .halted) = none := by decide                             -- X12
theorem test_load_seven_bytes :
    (State.reset.load [1, 2, 3, 4, 5, 6, 7]).map (fun t => (t.mem.read 6, t.mem.read 7)) = some (7, 0xF4) := by decide -- RS2
theorem test_load_eight_bytes :
    (State.reset.load [1, 2, 3, 4, 5, 6, 7, 8]).map (·.mem.read 7) = some 8 := by decide                            -- RS3
theorem test_load_refuses : State.reset.load [256] = none := by decide
/-- LD1, LD3: the line of LDI with its comment, between a comment line and a blank line. -/
theorem test_image_text : parseImage ("# comment\n10000010 # LDI R0,8\n\n00000001".toList) = some [0x82, 0x01] := by decide
theorem test_image_text_malformed : parseImage ("1000001".toList) = none := by decide
/-- The source's scenario 2 line (95_test_vectors.md S2). -/
theorem test_asm_line : (parseAsmLine ("LDI R0,5; LDI R1,3; ADD R0,R1; PRN R0; HLT".toList)).map (assemble OpcodeMap.ls8) =
    some [0x82, 0, 5, 0x82, 1, 3, 0xA0, 0, 1, 0x47, 0, 0x01] := by decide
theorem test_asm_no_sp_name : parseAsm ("PUSH SP".toList) = none := by decide
theorem test_asm_text : asmText (.ldi 0 200) = "LDI R0,200".toList := by decide

/-! ## Witnesses: concrete states that meet every hypothesis of a statement together, at the ends of its ranges -/

/-- A state the invariant holds of: bytes in the registers, a program of one DIV by zero. -/
def divZero : State := start fixedFloor 255 0 0 [0xA3, 0, 1]

theorem divZero_inv : divZero.Inv where
  mem := by decide
  regs := show ∀ r : Fin 8, 0 ≤ divZero.reg r ∧ divZero.reg r ≤ 255 by decide
  fl := .inl rfl
  pc := show (0 : Int) ≤ 0 ∧ (0 : Int) ≤ 256 by decide
  out := fun _ h => absurd h (by simp [divZero, start, State.resetWith])
  opcodes := by decide

/-- A state the invariant holds of in COMPAT: SP is -1. -/
def negativeSp : State := start compatFloor 5 0 (-1) [0x45, 0]

theorem negativeSp_inv : negativeSp.Inv where
  mem := by decide
  regs := show ∀ r : Fin 8, -256 ≤ negativeSp.reg r ∧ negativeSp.reg r ≤ 255 by decide
  fl := .inl rfl
  pc := show (-256 : Int) ≤ 0 ∧ (0 : Int) ≤ 256 by decide
  out := fun _ h => absurd h (by simp [negativeSp, start, State.resetWith])
  opcodes := by decide

/-- AddSubMulStoreResultModulo256, AndOrXorStoreBytePatternResult and every other check of register bytes: the first and
the last bad byte, in either place. -/
theorem witness_ChecksRegisters :
    7 < (8 : Byte).toNat ∧ 7 < (255 : Byte).toNat ∧
    (7 < (0 : Byte).toNat ∨ 7 < (8 : Byte).toNat) ∧ (7 < (255 : Byte).toNat ∨ 7 < (7 : Byte).toNat) := by decide

theorem witness_DivFollowsDivMode :
    (start fixedFloor 5 0 0 []).reg 1 = 0 ∧
    ((start fixedFloor 5 1 0 []).reg 1 ≠ 0 ∧ (start fixedFloor 5 1 0 []).params.divMode = .floor) ∧
    ((start compatTrunc (-1) (-1) 0 []).reg 1 ≠ 0 ∧ (start compatTrunc (-1) (-1) 0 []).params.divMode = .trunc) ∧
    ((start fixedAbort 5 1 0 []).reg 1 ≠ 0 ∧ (start fixedAbort 5 1 0 []).params.divMode = .abort) := by decide

theorem witness_ModStoresFloorRemainder :
    (start fixedFloor 5 0 0 []).reg 1 = 0 ∧
    ((start fixedFloor 5 1 0 []).reg 1 ≠ 0 ∧ (start fixedFloor 5 1 0 []).params.maskMode = .fixed) ∧
    ((start compatFloor 5 (-1) 0 []).reg 1 ≠ 0 ∧ (start compatFloor 5 (-1) 0 []).params.maskMode = .compat) := by decide

theorem witness_NotStoresComplement :
    (start fixedFloor 0 0 0 []).params.maskMode = .fixed ∧ (start compatFloor 0 0 0 []).params.maskMode = .compat := by
  decide

/-- ShlShiftsByWholeCount and ShrShiftsByWholeCount. -/
theorem witness_ShiftsByWholeCount :
    0 ≤ (start fixedFloor 1 0 0 []).reg 1 ∧ (start compatFloor 1 (-1) 0 []).reg 1 < 0 := by decide

theorem witness_CmpOverwritesAllFlags :
    (start fixedFloor 5 5 0 []).reg 0 = (start fixedFloor 5 5 0 []).reg 1 ∧
    (start fixedFloor 6 5 0 []).reg 0 > (start fixedFloor 6 5 0 []).reg 1 ∧
    (start fixedFloor 5 6 0 []).reg 0 < (start fixedFloor 5 6 0 []).reg 1 := by decide

/-- The pushed value 0, 255, the decremented SP of PUSH R7, and -1. -/
theorem witness_PushStoresBelowStackPointer :
    (start fixedFloor 0 255 0 []).mem.wf ∧ 255 = ((start fixedFloor 0 255 0 []).reg 7 - 1) % 256 ∧
    0 = (if (0 : Fin 8) = 7 then 255 else (start fixedFloor 0 255 0 []).reg 0) ∧
    255 = (if (1 : Fin 8) = 7 then 255 else (start fixedFloor 0 255 0 []).reg 1) ∧
    255 = (if (7 : Fin 8) = 7 then 255 else (start fixedFloor 0 255 0 []).reg 7) ∧
    -1 = (if (0 : Fin 8) = 7 then 255 else (start compatFloor (-1) 0 0 []).reg 0) := by decide

/-- SP = 0 and 255, -1 and (in a state no run reaches) 256; for RetPopsProgramCounter too. -/
theorem witness_PopLoadsFromStackPointer :
    memRead (start fixedFloor 0 0 0 [0x46]).mem ((start fixedFloor 0 0 0 [0x46]).reg 7) = .ok 0x46 ∧
    memRead (start fixedFloor 0 0 255 []).mem ((start fixedFloor 0 0 255 []).reg 7) = .ok 0 ∧
    (start compatFloor 0 0 (-1) []).reg 7 < 0 ∧ 255 < (start compatFloor 0 0 256 []).reg 7 :=
  ⟨rfl, rfl, by decide, by decide⟩

theorem witness_CallPushesReturnAddress :
    (start fixedFloor 0 0 0 []).mem.wf ∧ 0 ≤ (start fixedFloor 0 0 0 []).pc ∧
    ((start fixedFloor 0 0 0 []).setPc 253).pc ≤ 253 ∧ 255 = ((start fixedFloor 0 0 0 []).reg 7 - 1) % 256 := by decide

theorem witness_PushPopRestoresRegisterAndStackPointer :
    ∃ t, (start fixedFloor 255 0 0 []).mem.wf ∧ 0 ≤ (start fixedFloor 255 0 0 []).reg 7 ∧
      (start fixedFloor 255 0 0 []).reg 7 ≤ 255 ∧
      exec (.push (regByte 0)) (start fixedFloor 255 0 0 []) = .next t ∧ t.run = .running :=
  ⟨_, by decide, by decide, by decide, rfl, rfl⟩

theorem witness_PushPopRestoresAnyStackPointer :
    ∃ t, negativeSp.Inv ∧ negativeSp.run = .running ∧ exec (.push (regByte 0)) negativeSp = .next t ∧ t.run = .running :=
  ⟨_, negativeSp_inv, rfl, rfl, rfl⟩

/-- SP = 255, and SP = -1 in COMPAT. -/
theorem witness_CallRetResumesAfterCall :
    (∃ t, (start fixedFloor 9 0 255 []).mem.wf ∧ 0 ≤ (start fixedFloor 9 0 255 []).pc ∧
      (start fixedFloor 9 0 255 []).pc ≤ 253 ∧ 0 ≤ (start fixedFloor 9 0 255 []).reg 7 ∧
      (start fixedFloor 9 0 255 []).reg 7 ≤ 255 ∧
      exec (.call (regByte 0)) (start fixedFloor 9 0 255 []) = .next t ∧
      t.reg 7 = t.reg 7 ∧ memRead t.mem (t.reg 7) = memRead t.mem (t.reg 7)) ∧
    ∃ t, negativeSp.mem.wf ∧ 0 ≤ negativeSp.pc ∧ negativeSp.pc ≤ 253 ∧ negativeSp.reg 7 = -1 ∧
      exec (.call (regByte 0)) negativeSp = .next t ∧
      t.reg 7 = t.reg 7 ∧ memRead t.mem (t.reg 7) = memRead t.mem (t.reg 7) :=
  ⟨⟨_, by decide, by decide, by decide, by decide, by decide, rfl, rfl, rfl⟩,
    _, by decide, by decide, by decide, by decide, rfl, rfl, rfl⟩

theorem witness_ConsecutivePushesFillMemoryDownward :
    (start fixedFloor 255 0 0 []).mem.wf ∧ (0 : Fin 8) ≠ 7 ∧ 0 ≤ (start fixedFloor 255 0 0 []).reg 0 ∧
    (start fixedFloor 255 0 0 []).reg 0 ≤ 255 ∧ 0 ≤ (start fixedFloor 255 0 0 []).reg 7 ∧
    (start fixedFloor 255 0 0 []).reg 7 ≤ 255 := by decide

theorem witness_DivisionsRoundAsDefined : (-1 : Int) ≠ 0 ∧ (0 : Int) ≤ 0 ∧ (0 : Int) < 1 := by decide

theorem witness_AluDependsOnlyOnBytePatterns : (0 : Int) ≤ 0 := by decide

/-- ADD, and DIV with its non-zero divisor. -/
theorem witness_EightBitAluIsExactInFixedMode :
    ((start fixedFloor 255 1 0 []).params.maskMode = .fixed ∧ (start fixedFloor 255 1 0 []).params.divMode ≠ .abort ∧
      (∀ q : Fin 8, 0 ≤ (start fixedFloor 255 1 0 []).reg q ∧ (start fixedFloor 255 1 0 []).reg q ≤ 255) ∧
      (start fixedFloor 255 1 0 []).reg 1 ≠ 0) ∧
    alu8 .add (BitVec.ofInt 8 255) (BitVec.ofInt 8 1) = some 0 ∧
    alu8 .div (BitVec.ofInt 8 255) (BitVec.ofInt 8 1) = some 255 := by decide

/-- DecodeOfEncodeIsIdentity and WholeOpcodeByteSelectsInstruction: a map other than the default one. -/
theorem witness_ValidOpcodes : OpcodeMap.Valid { OpcodeMap.ls8 with ret := 0x12 } := by decide

theorem witness_EncodeOfDecodeIsPrefix : decode OpcodeMap.ls8 0x82 7 255 = .ok (.ldi 7 255) := rfl

/-- At pc = 253, the last fetch address. -/
theorem witness_StepRunsDecodedInstruction :
    let s := ((start fixedFloor 0 0 0 []).setMem (storeBytes [] 253 [0x82, 7, 9])).setPc 253
    s.run = .running ∧ memRead s.mem s.pc = .ok 0x82 ∧ memRead s.mem (s.pc + 1) = .ok 7 ∧
      memRead s.mem (s.pc + 2) = .ok 9 ∧ decode s.params.opcodes 0x82 7 9 = .ok (.ldi 7 9) := ⟨rfl, rfl, rfl, rfl, rfl⟩

/-- pc = -1, 254, 0 and 253. -/
theorem witness_FetchNeedsThreeBytesInRange :
    State.reset.run = .running ∧ (State.reset.setPc (-1)).pc < 0 ∧ 253 < (State.reset.setPc 254).pc ∧
    (0 ≤ State.reset.pc ∧ State.reset.pc ≤ 253) ∧ (State.reset.setPc 253).pc ≤ 253 := by decide

theorem witness_UnknownOpcodeFaultsPrecisely :
    State.reset.run = .running ∧ 0 ≤ State.reset.pc ∧ State.reset.pc ≤ 253 ∧
    memRead State.reset.mem State.reset.pc = .ok 0 ∧ ∀ n : Mnemonic, State.reset.params.opcodes.byte n ≠ 0 :=
  ⟨rfl, by decide, by decide, rfl, fun n => by cases n <;> decide⟩

theorem witness_EndedRunsAreFrozen : (State.reset.setRun .halted).Ended := by simp [State.Ended]

theorem witness_LargerBudgetsKeepTheEnd : (runLoop 1 State.reset).Ended :=
  show (runLoop 1 State.reset).run ≠ .running by decide

/-- RunningCoreAlwaysSteps, BadRegisterExactlyWhenIllFormed. -/
theorem witness_running : State.reset.run = .running := rfl

theorem witness_FatalStopsArePrecise :
    ∃ t, divZero.run = .running ∧ step divZero = .next t ∧ t.run = .aborted .divideByZero 0 := ⟨_, rfl, rfl, rfl⟩

/-- Each clause: pc = 254; an unknown byte at 0; a decoded instruction with a bad register; a well-formed one; DIV by
zero with DIV_MODE = ABORT. -/
theorem witness_StopChecksInPriorityOrder :
    253 < (State.reset.setPc 254).pc ∧
    (memRead State.reset.mem State.reset.pc = .ok 0 ∧ State.reset.params.opcodes.lookup 0 = none) ∧
    (fetch (start fixedFloor 0 0 0 [0x47, 8]) = .instr (.prn 8) ∧ Instr.wf (.prn 8) = false) ∧
    (∃ t, fetch (start fixedFloor 0 0 0 [0x47, 7]) = .instr (.prn 7) ∧ Instr.wf (.prn 7) = true ∧
      step (start fixedFloor 0 0 0 [0x47, 7]) = .next t) ∧
    (fetch (start fixedAbort 5 0 0 [0xA3, 0, 1]) = .instr (.div (regByte 0) (regByte 1)) ∧
      (start fixedAbort 5 0 0 [0xA3, 0, 1]).reg 1 = 0 ∧
      (start fixedAbort 5 0 0 [0xA3, 0, 1]).params.divMode = .abort) :=
  ⟨by decide, ⟨rfl, rfl⟩, ⟨rfl, rfl⟩, ⟨_, rfl, rfl, rfl⟩, rfl, by decide, rfl⟩

/-- Every kind an instruction raises. -/
theorem witness_StopKindsAndTheirRaisers :
    (∃ t, exec (.mod 0 1) divZero = .next t ∧ t.run = .aborted .divideByZero 0) ∧
    (∃ t, exec (.div 0 1) (start fixedAbort 1 1 0 []) = .next t ∧ t.run = .aborted .divUndefined 0) ∧
    (∃ t, exec .ret negativeSp = .next t ∧ t.run = .aborted .addressOutOfRange 0) ∧
    (∃ t, exec (.prn 8) divZero = .next t ∧ t.run = .aborted .badRegister 0) ∧
    (∃ t, exec (.shl 0 7) negativeSp = .next t ∧ t.run = .aborted .negativeShift 0) ∧
    ∃ t, exec (.push 0) (start compatFloor (-1) 0 0 []) = .next t ∧ t.run = .aborted .cellRange 0 :=
  ⟨⟨_, rfl, rfl⟩, ⟨_, rfl, rfl⟩, ⟨_, rfl, rfl⟩, ⟨_, rfl, rfl⟩, ⟨_, rfl, rfl⟩, ⟨_, rfl, rfl⟩⟩

/-- A stop by an instruction, and one by the fetch at 254. -/
theorem witness_FixedModeStops :
    (∃ t, divZero.Inv ∧ divZero.params.maskMode = .fixed ∧ divZero.run = .running ∧ step divZero = .next t ∧
      t.run = .aborted .divideByZero 0) ∧
    ∃ t, (divZero.setPc 254).Inv ∧ step (divZero.setPc 254) = .next t ∧ t.run = .aborted .addressOutOfRange 254 :=
  ⟨⟨_, divZero_inv, rfl, rfl, rfl, rfl⟩,
    _, ⟨divZero_inv.mem, divZero_inv.regs, divZero_inv.fl, show (0 : Int) ≤ 254 ∧ (254 : Int) ≤ 256 by decide,
      divZero_inv.out, divZero_inv.opcodes⟩, rfl, rfl⟩

/-- StepKeepsInvariant, ParametersAreConstant, NoStepDependsOnFlags: a step from a state of the invariant. -/
theorem witness_StepKeepsInvariant : ∃ t, negativeSp.Inv ∧ step negativeSp = .next t ∧ t.run = .running :=
  ⟨_, negativeSp_inv, rfl, rfl⟩

/-- The empty image, one of 256 bytes of 255, one of 257 bytes, and one with the value 256. -/
theorem witness_LoadWritesImageFromZero :
    State.reset.mem.wf ∧ ([] : List Nat).length ≤ 256 ∧ (List.replicate 256 255).length ≤ 256 ∧
    (∀ v ∈ List.replicate 256 255, v < 256) ∧ 256 < (List.replicate 257 0).length ∧ ∃ v ∈ [256], 256 ≤ v :=
  ⟨by decide, by decide, Nat.le_of_eq List.length_replicate,
    fun _ h => Nat.lt_of_le_of_lt (Nat.le_of_eq (List.eq_of_mem_replicate h)) (by decide),
    Nat.lt_of_lt_of_eq (by decide) List.length_replicate.symm, 256, by decide, by decide⟩

/-- OnlyCmpWritesFlags: CMP, and another instruction. -/
theorem witness_OnlyCmpWritesFlags :
    (∃ t, exec (.cmp 0 1) divZero = .next t ∧ t.fl ≠ divZero.fl) ∧
    ∃ t, exec (.add 0 1) divZero = .next t ∧ Instr.mnemonic (.add 0 1) ≠ .cmp :=
  ⟨⟨_, rfl, by decide⟩, _, rfl, by decide⟩

/-- OnlyPrnExtendsOutput: PRN itself. -/
theorem witness_OnlyPrnExtendsOutput : ∃ t, exec (.prn (regByte 0)) divZero = .next t ∧ t.out = [255] := ⟨_, rfl, rfl⟩

/-- OnlyPushAndCallWriteMemory: PUSH, and an instruction that is neither PUSH nor CALL. -/
theorem witness_OnlyPushAndCallWriteMemory :
    (∃ t, exec (.push 0) divZero = .next t ∧ t.mem.read 255 = 255) ∧
    ∃ t, exec (.pop 0) divZero = .next t ∧ Instr.mnemonic (.pop 0) ≠ .push ∧ Instr.mnemonic (.pop 0) ≠ .call :=
  ⟨⟨_, rfl, rfl⟩, _, rfl, by decide, by decide⟩

theorem witness_OnlyListedRegistersWritten :
    ∃ t, exec (.pop 0) divZero = .next t ∧ regByte 1 ∉ registersWritten (.pop 0) := ⟨_, rfl, by decide⟩

theorem witness_OnlyListedRegistersRead :
    ∃ t, exec (.pop 0) divZero = .next t ∧ regByte 0 ∉ registersRead (.pop 0) := ⟨_, rfl, by decide⟩

theorem witness_ProgramCounterMovesByWidth :
    ∃ t, divZero.run = .running ∧ exec (.prn 0) divZero = .next t ∧ t.run = .running ∧
      Instr.mnemonic (.prn 0) ≠ .call ∧ Instr.mnemonic (.prn 0) ≠ .ret := ⟨_, rfl, rfl, rfl, by decide, by decide⟩

/-- Addresses -1, 256, 0 and 255; values -1, 256, 0 and 255. -/
theorem witness_MemoryPrimitivesBehave :
    Memory.wf [(0, 1), (7, 0), (255, 9)] ∧ (-1 : Int) < 0 ∧ (255 : Int) < 256 ∧ (0 : Int) ≤ 0 ∧ (255 : Int) ≤ 255 := by
  decide

theorem witness_CanonicalMemoryIsUnique :
    Memory.wf [(0, 1), (7, 0), (255, 9)] ∧
    ∀ addr : Int, memRead [(0, 1), (7, 0), (255, 9)] addr = memRead [(0, 1), (7, 0), (255, 9)] addr :=
  ⟨by decide, fun _ => rfl⟩

/-- At pc = 253, the last fetch address. -/
theorem witness_PlacedWordIsRunNext :
    (divZero.setPc 253).mem.wf ∧ (divZero.setPc 253).run = .running ∧ 0 ≤ (divZero.setPc 253).pc ∧
    (divZero.setPc 253).pc ≤ 253 ∧ (divZero.setPc 253).params.opcodes = OpcodeMap.ls8 ∧
    decodeTableWord 24 0xFF0782 = some (.ldi 7 255) := by decide

/-- A blank line and a comment-only line. -/
theorem witness_ImageTextSkipsCommentsAndBlanks :
    ((" ".toList).takeWhile (· != '#')).all isBlank = true ∧
    (("  # comment".toList).takeWhile (· != '#')).all isBlank = true := by decide

theorem witness_AssemblerTextNamesInstruction : Instr.wf (.ldi 7 255) = true := rfl

end Sys2Proof.Tests
end

section
/-! The proofs of the statements of 00_scope.md: the quotients and shifts of R10 as rounded rationals, the bitwise
operations as two's complement, and the ALU in MASK_MODE = FIXED as an 8-bit machine. -/

namespace Sys2Proof.Machine

/-! ## Quotients and shifts (00_scope.md R10)

A divisor's sign can be moved to the dividend, in the integers and in the rationals alike; so a law of the quotients
need only be proved for a divisor that is a natural number. -/

theorem floordiv_neg_right (p q : Int) : floordiv p (-q) = floordiv (-p) q := by
  rw [floordiv, floordiv, ← Int.neg_fdiv_neg, neg_neg]

theorem truncdiv_neg_right (p q : Int) : truncdiv p (-q) = truncdiv (-p) q := by
  rw [truncdiv, truncdiv, Int.tdiv_neg, Int.neg_tdiv]

theorem cast_div_neg_right (p : Int) (q : ℚ) : (p : ℚ) / -q = ((-p : Int) : ℚ) / q := by
  rw [div_neg, Int.cast_neg, neg_div]

theorem floordiv_natCast (p : Int) (n : Nat) : floordiv p n = p / n :=
  Int.fdiv_eq_ediv_of_nonneg p (Int.natCast_nonneg n)

/-- `floordiv` is the floor of the rational quotient. -/
theorem floordiv_eq_floor (p q : Int) : floordiv p q = ⌊(p : ℚ) / (q : ℚ)⌋ := by
  obtain ⟨n, rfl | rfl⟩ := q.eq_nat_or_neg
  · rw [floordiv_natCast, Int.cast_natCast, Rat.floor_intCast_div_natCast]
  · rw [floordiv_neg_right, floordiv_natCast, Int.cast_neg, cast_div_neg_right, Int.cast_natCast,
      Rat.floor_intCast_div_natCast]

/-- The rational rounded toward zero. -/
def roundTowardZero (x : ℚ) : Int := if 0 ≤ x then ⌊x⌋ else ⌈x⌉

theorem truncdiv_natCast_eq_roundTowardZero (p : Int) {n : Nat} (hn : 0 < n) :
    truncdiv p n = roundTowardZero ((p : ℚ) / (n : ℚ)) := by
  have hn' : (0 : ℚ) < n := by exact_mod_cast hn
  by_cases hp : 0 ≤ p
  · have hx : 0 ≤ (p : ℚ) / n := div_nonneg (by exact_mod_cast hp) hn'.le
    rw [roundTowardZero, if_pos hx, truncdiv, Int.tdiv_eq_ediv_of_nonneg hp, Rat.floor_intCast_div_natCast]
  · have hx : ¬ 0 ≤ (p : ℚ) / n := not_le.2 (div_neg_of_neg_of_pos (by exact_mod_cast not_le.1 hp) hn')
    rw [roundTowardZero, if_neg hx, Rat.ceil_intCast_div_natCast, ← Int.tdiv_eq_ediv_of_nonneg (by omega),
      Int.neg_tdiv, neg_neg, truncdiv]

/-- `truncdiv` is the rational quotient rounded toward zero. -/
theorem truncdiv_eq_roundTowardZero (p : Int) {q : Int} (hq : q ≠ 0) :
    truncdiv p q = roundTowardZero ((p : ℚ) / (q : ℚ)) := by
  obtain ⟨n, rfl | rfl⟩ := q.eq_nat_or_neg
  · exact truncdiv_natCast_eq_roundTowardZero p (by omega)
  · rw [truncdiv_neg_right, Int.cast_neg, cast_div_neg_right]
    exact truncdiv_natCast_eq_roundTowardZero (-p) (by omega)

/-- For operands that are not negative the two quotients agree. -/
theorem floordiv_eq_truncdiv {p q : Int} (hp : 0 ≤ p) (hq : 0 ≤ q) : floordiv p q = truncdiv p q := by
  rw [floordiv, truncdiv, Int.fdiv_eq_ediv_of_nonneg p hq, Int.tdiv_eq_ediv_of_nonneg hp]

/-- By a divisor that is not negative, `floormod` is the ordinary remainder. -/
theorem floormod_eq_emod (p : Int) {q : Int} (hq : 0 ≤ q) : floormod p q = p % q := by
  rw [floormod_eq_fmod, Int.fmod_eq_emod_of_nonneg p hq]

theorem shiftRight_eq_floor (p : Int) (n : Nat) : shiftRight p n = ⌊(p : ℚ) / 2 ^ n⌋ := by
  rw [shiftRight, floordiv_eq_floor, Int.cast_pow, Int.cast_ofNat]

/-- Settles O20: each quotient is compared with the rational one for a natural divisor, and a negative divisor's sign
is moved to the dividend. -/
theorem divisionsRoundAsDefined : Obligations.DivisionsRoundAsDefined :=
  ⟨fun p q hq => ⟨floordiv_eq_floor p q, rfl, truncdiv_eq_roundTowardZero p hq⟩,
    fun p _ hp hq => ⟨floordiv_eq_truncdiv hp hq.le, floormod_eq_emod p hq.le⟩,
    fun p n => ⟨rfl, shiftRight_eq_floor p n⟩⟩

/-! ## Bitwise operations (00_scope.md R10) -/

theorem testBit_bitAnd (p q : Int) (k : Nat) : Int.testBit (bitAnd p q) k = (Int.testBit p k && Int.testBit q k) := by
  rw [bitAnd_eq_land, Int.testBit_land]

theorem testBit_bitOr (p q : Int) (k : Nat) : Int.testBit (bitOr p q) k = (Int.testBit p k || Int.testBit q k) := by
  rw [bitOr_eq_lor, Int.testBit_lor]

theorem testBit_bitXor (p q : Int) (k : Nat) : Int.testBit (bitXor p q) k = (Int.testBit p k ^^ Int.testBit q k) := by
  rw [bitXor_eq_xor, Int.testBit_lxor]

/-! ### On bytes read as unsigned numbers, the integer operations are those of the bit vectors -/

theorem zext8_and (x y : Byte) : zext8 (x &&& y) = bitAnd (zext8 x) (zext8 y) := by
  simp only [zext8, BitVec.toNat_and]; rfl

theorem zext8_or (x y : Byte) : zext8 (x ||| y) = bitOr (zext8 x) (zext8 y) := by
  simp only [zext8, BitVec.toNat_or]; rfl

theorem zext8_xor (x y : Byte) : zext8 (x ^^^ y) = bitXor (zext8 x) (zext8 y) := by
  simp only [zext8, BitVec.toNat_xor]; rfl

/-! ### Masks of the operations, through the 8-bit patterns -/

theorem mask_bitAnd (p q : Int) : mask (bitAnd p q) = bitAnd (mask p) (mask q) := by
  simp only [mask_eq_zext8, ofInt_bitAnd, zext8_and]

theorem mask_bitOr (p q : Int) : mask (bitOr p q) = bitOr (mask p) (mask q) := by
  simp only [mask_eq_zext8, ofInt_bitOr, zext8_or]

theorem mask_bitXor (p q : Int) : mask (bitXor p q) = bitXor (mask p) (mask q) := by
  simp only [mask_eq_zext8, ofInt_bitXor, zext8_xor]

/-- Settles O21: the bits are those of the library's operations on integers, and a mask is the unsigned reading of the
8-bit pattern, on which the operations act bit by bit. -/
theorem bitwiseOperationsAreTwosComplement : Obligations.BitwiseOperationsAreTwosComplement := fun p q =>
  ⟨testBit_bitAnd p q, testBit_bitOr p q, testBit_bitXor p q, rfl, mask_bitAnd p q, mask_bitOr p q, mask_bitXor p q⟩

/-! ## The ALU on 8-bit patterns (00_scope.md R9, 40_alu.md R114) -/

@[simp] theorem ofInt_zext8 (x : Byte) : BitVec.ofInt 8 (zext8 x) = x := by
  rw [zext8, BitVec.ofInt_natCast, BitVec.ofNat_toNat, BitVec.setWidth_eq]

@[simp] theorem mask_zext8 (x : Byte) : mask (zext8 x) = zext8 x := by rw [mask_eq_zext8, ofInt_zext8]

theorem decide_zext8_eq (x y : Byte) : decide (zext8 x = zext8 y) = (x == y) := by
  simp only [zext8, Int.ofNat_inj, BitVec.toNat_inj, beq_eq_decide]

theorem decide_zext8_lt (x y : Byte) : decide (zext8 x < zext8 y) = x.ult y := by
  simp only [zext8, Int.ofNat_lt, BitVec.ult_eq_decide]

/-! ### Of any integers: the result is a function of the patterns -/

theorem aluAdd_eq_zext8 (va vb : Int) : aluAdd va vb = zext8 (BitVec.ofInt 8 va + BitVec.ofInt 8 vb) := by
  rw [aluAdd, mask_eq_zext8, BitVec.ofInt_add]

theorem aluSub_eq_zext8 (va vb : Int) : aluSub va vb = zext8 (BitVec.ofInt 8 va - BitVec.ofInt 8 vb) := by
  rw [aluSub, mask_eq_zext8, Int.sub_eq_add_neg, BitVec.ofInt_add, BitVec.ofInt_neg, BitVec.sub_eq_add_neg]

theorem aluMul_eq_zext8 (va vb : Int) : aluMul va vb = zext8 (BitVec.ofInt 8 va * BitVec.ofInt 8 vb) := by
  rw [aluMul, mask_eq_zext8, BitVec.ofInt_mul]

theorem aluAnd_eq_zext8 (va vb : Int) : aluAnd va vb = zext8 (BitVec.ofInt 8 va &&& BitVec.ofInt 8 vb) := by
  rw [aluAnd, mask_eq_zext8, ofInt_bitAnd]

theorem aluOr_eq_zext8 (va vb : Int) : aluOr va vb = zext8 (BitVec.ofInt 8 va ||| BitVec.ofInt 8 vb) := by
  rw [aluOr, mask_eq_zext8, ofInt_bitOr]

theorem aluXor_eq_zext8 (va vb : Int) : aluXor va vb = zext8 (BitVec.ofInt 8 va ^^^ BitVec.ofInt 8 vb) := by
  rw [aluXor, mask_eq_zext8, ofInt_bitXor]

theorem ofInt_bitNot (v : Int) : BitVec.ofInt 8 (bitNot v) = ~~~BitVec.ofInt 8 v := by
  rw [bitNot, Int.sub_eq_add_neg, BitVec.ofInt_add, BitVec.ofInt_neg, BitVec.not_eq_neg_add, BitVec.sub_eq_add_neg]
  rfl

theorem aluNot_fixed (v : Int) : aluNot .fixed v = zext8 (~~~BitVec.ofInt 8 v) := by
  rw [aluNot, mask_eq_zext8, ofInt_bitNot]

theorem ofInt_shiftLeft (v : Int) (n : Nat) : BitVec.ofInt 8 (shiftLeft v n) = BitVec.ofInt 8 v <<< n := by
  have hpow : BitVec.ofInt 8 (2 ^ n) = BitVec.twoPow 8 n := by
    refine BitVec.eq_of_toNat_eq ?_
    rw [BitVec.toNat_twoPow, ← BitVec.toNat_ofNat, ← BitVec.ofInt_natCast, Int.natCast_pow, Int.cast_ofNat_Int]
  rw [shiftLeft, BitVec.ofInt_mul, hpow, BitVec.shiftLeft_eq_mul_twoPow]

/-! ### Of bytes: quotients, remainders and shifts are those of the 8-bit machine -/

theorem floordiv_zext8 (x y : Byte) : floordiv (zext8 x) (zext8 y) = zext8 (x / y) := by
  simp only [zext8, BitVec.toNat_udiv, floordiv_natCast, Int.natCast_ediv]

theorem truncdiv_zext8 (x y : Byte) : truncdiv (zext8 x) (zext8 y) = zext8 (x / y) := by
  rw [← floordiv_eq_truncdiv (zext8_nonneg x) (zext8_nonneg y), floordiv_zext8]

theorem floormod_zext8 (x y : Byte) : floormod (zext8 x) (zext8 y) = zext8 (x % y) := by
  rw [floormod_eq_emod _ (zext8_nonneg y), zext8, zext8, zext8, BitVec.toNat_umod, Int.natCast_emod]

theorem shiftRight_zext8 (x : Byte) (n : Nat) : shiftRight (zext8 x) n = zext8 (x >>> n) := by
  rw [shiftRight, ← Int.cast_ofNat_Int, ← Int.natCast_pow, floordiv_natCast, zext8, zext8, BitVec.toNat_ushiftRight,
    Nat.shiftRight_eq_div_pow, Int.natCast_ediv]

theorem aluDiv_zext8 {mode : DivMode} (hmode : mode ≠ .abort) (x : Byte) {y : Byte} (hy : zext8 y ≠ 0) :
    aluDiv mode (zext8 x) (zext8 y) = .ok (zext8 (x / y)) := by
  cases mode with
  | floor => simp only [aluDiv, if_neg hy, floordiv_zext8, mask_zext8]
  | trunc => simp only [aluDiv, if_neg hy, truncdiv_zext8, mask_zext8]
  | abort => exact absurd rfl hmode

theorem aluMod_fixed_zext8 (x : Byte) {y : Byte} (hy : zext8 y ≠ 0) :
    aluMod .fixed (zext8 x) (zext8 y) = .ok (zext8 (x % y)) := by
  rw [aluMod, if_neg hy, floormod_zext8, mask_zext8]

theorem aluShl_zext8 (x y : Byte) : aluShl (zext8 x) (zext8 y) = .ok (zext8 (x <<< y.toNat)) := by
  rw [aluShl, if_neg (zext8_nonneg y).not_gt, mask_eq_zext8, ofInt_shiftLeft, ofInt_zext8]
  rfl

theorem aluShr_zext8 (x y : Byte) : aluShr (zext8 x) (zext8 y) = .ok (zext8 (x >>> y.toNat)) := by
  rw [aluShr, if_neg (zext8_nonneg y).not_gt, shiftRight_zext8, mask_zext8]
  rfl

/-! ### The instructions -/

/-- With byte registers in MASK_MODE = FIXED, an ALU instruction writes the 8-bit machine's result to x[a] and moves pc;
nothing else changes. A mnemonic that `alu8` gives no result is none of these. -/
theorem exec_eq_alu8 {s : State} {n : Mnemonic} {a b : Fin 8} {x y r : Byte} (hmask : s.params.maskMode = .fixed)
    (hdiv : s.params.divMode ≠ .abort) (ha : s.reg a = zext8 x) (hb : s.reg b = zext8 y)
    (hzero : n = .div ∨ n = .mod → s.reg b ≠ 0) (hr : alu8 n x y = some r) :
    ∃ width, exec (Instr.ofBytes n (regByte a) (regByte b)) s = .next ((s.setReg a (zext8 r)).advance width) := by
  cases n with cases hr
  | not => exact ⟨2, (exec_not s a).trans (by rw [hmask, ha, aluNot_fixed, ofInt_zext8])⟩
  | add => exact ⟨3, (exec_add s a b).trans (by rw [ha, hb, aluAdd_eq_zext8, ofInt_zext8, ofInt_zext8])⟩
  | sub => exact ⟨3, (exec_sub s a b).trans (by rw [ha, hb, aluSub_eq_zext8, ofInt_zext8, ofInt_zext8])⟩
  | mul => exact ⟨3, (exec_mul s a b).trans (by rw [ha, hb, aluMul_eq_zext8, ofInt_zext8, ofInt_zext8])⟩
  | and => exact ⟨3, (exec_and s a b).trans (by rw [ha, hb, aluAnd_eq_zext8, ofInt_zext8, ofInt_zext8])⟩
  | or => exact ⟨3, (exec_or s a b).trans (by rw [ha, hb, aluOr_eq_zext8, ofInt_zext8, ofInt_zext8])⟩
  | xor => exact ⟨3, (exec_xor s a b).trans (by rw [ha, hb, aluXor_eq_zext8, ofInt_zext8, ofInt_zext8])⟩
  | div => exact ⟨3, aluRR_ok (by rw [ha, hb, aluDiv_zext8 hdiv x (hb ▸ hzero (.inl rfl))])⟩
  | mod => exact ⟨3, aluRR_ok (by rw [hmask, ha, hb, aluMod_fixed_zext8 x (hb ▸ hzero (.inr rfl))])⟩
  | shl => exact ⟨3, aluRR_ok (by rw [ha, hb, aluShl_zext8])⟩
  | shr => exact ⟨3, aluRR_ok (by rw [ha, hb, aluShr_zext8])⟩

/-! ### The flags a comparison leaves, bit by bit (10_state.md R26, 40_alu.md R112) -/

theorem compareFlags_equal (va vb : Int) (fl : FlagBits) :
    (compareFlags va vb fl).getLsbD 0 = decide (va = vb) := by
  rw [compareFlags_eq]
  split_ifs with heq hgt
  all_goals simp [heq]

theorem compareFlags_greater (va vb : Int) (fl : FlagBits) :
    (compareFlags va vb fl).getLsbD 1 = decide (vb < va) := by
  rw [compareFlags_eq]
  split_ifs with heq hgt
  · simp [heq]
  · simp [hgt]
  · simp [hgt]

theorem compareFlags_less (va vb : Int) (fl : FlagBits) :
    (compareFlags va vb fl).getLsbD 2 = decide (va < vb) := by
  rw [compareFlags_eq]
  split_ifs with heq hgt
  · simp [heq]
  · simp [hgt.le]
  · simp [show va < vb by omega]

/-- CMP of byte registers sets the flags of the unsigned comparison. -/
theorem exec_cmp_zext8 {s : State} {a b : Fin 8} {x y : Byte} (ha : s.reg a = zext8 x) (hb : s.reg b = zext8 y) :
    ∃ t, exec (.cmp (regByte a) (regByte b)) s = .next t ∧ t.equalFlag = (x == y) ∧ t.greaterFlag = y.ult x ∧
      t.lessFlag = x.ult y := by
  refine ⟨_, exec_cmp s a b, ?_, ?_, ?_⟩
  · rw [State.equalFlag, advance_fl, setFl_fl, compareFlags_equal, ha, hb, decide_zext8_eq]
  · rw [State.greaterFlag, advance_fl, setFl_fl, compareFlags_greater, ha, hb, decide_zext8_lt]
  · rw [State.lessFlag, advance_fl, setFl_fl, compareFlags_less, ha, hb, decide_zext8_lt]

/-- Settles O23: a register that holds a byte is the unsigned reading of its own pattern, and on such registers every
ALU instruction computes as `alu8` does. -/
theorem eightBitAluIsExactInFixedMode : Obligations.EightBitAluIsExactInFixedMode := by
  intro s n a b r hmask hdiv hbytes hzero
  have hreg (q : Fin 8) : s.reg q = zext8 (BitVec.ofInt 8 (s.reg q)) :=
    (zext8_ofInt (hbytes q).1 (hbytes q).2).symm
  refine ⟨fun hr => ?_, exec_cmp_zext8 (hreg a) (hreg b)⟩
  obtain ⟨width, h⟩ := exec_eq_alu8 hmask hdiv (hreg a) (hreg b) hzero hr
  exact ⟨_, h, by rw [advance_reg, setReg_reg_self], rfl⟩

end Sys2Proof.Machine
end

section
/-! What `exec` and `step` do, as relations: a state executes an instruction into the next one by exactly one rule of
40_alu.md or 41_handlers.md, and a step is a fetch that stops or one such rule. Statements about every instruction are
then proved by cases on the rules, without the definitions of the single instructions. -/

namespace Sys2Proof.Machine

/-! ## The two-register ALU instructions that write x[a] (40_alu.md R100)

Ten instructions differ in their operation on values alone. -/

/-- The operation of a two-register ALU instruction that writes x[a]; none for the other instructions. -/
def aluOp (p : Params) : Mnemonic → Option (Int → Int → Except AbortKind Int)
  | .add => some fun va vb => .ok (aluAdd va vb)
  | .sub => some fun va vb => .ok (aluSub va vb)
  | .mul => some fun va vb => .ok (aluMul va vb)
  | .div => some (aluDiv p.divMode)
  | .mod => some (aluMod p.maskMode)
  | .and => some fun va vb => .ok (aluAnd va vb)
  | .or => some fun va vb => .ok (aluOr va vb)
  | .xor => some fun va vb => .ok (aluXor va vb)
  | .shl => some aluShl
  | .shr => some aluShr
  | _ => none

section
variable {p : Params} {n : Mnemonic} {op : Int → Int → Except AbortKind Int}

theorem exec_aluOp {s : State} (h : aluOp s.params n = some op) (a b : Byte) :
    exec (Instr.ofBytes n a b) s = aluRR op a b s := by
  cases n <;> cases h <;> rfl

theorem wf_aluOp (h : aluOp p n = some op) (a b : Byte) :
    (Instr.ofBytes n a b).wf = (namesRegister a && namesRegister b) := by
  cases n <;> cases h <;> rfl

theorem width_aluOp (h : aluOp p n = some op) (a b : Byte) : (Instr.ofBytes n a b).width = 3 := by
  cases n <;> cases h <;> rfl

theorem registersRead_aluOp (h : aluOp p n = some op) (a b : Byte) :
    registersRead (Instr.ofBytes n a b) = [a, b] := by
  cases n <;> cases h <;> rfl

theorem registersWritten_aluOp (h : aluOp p n = some op) (a b : Byte) :
    registersWritten (Instr.ofBytes n a b) = [a] := by
  cases n <;> cases h <;> rfl

end

/-! ## The push, as PUSH and CALL share it -/

/-- x[a] read after SP is decremented (41_handlers.md R144, R146): for R7 the decremented SP. -/
def State.regBelow (s : State) (a : Fin 8) : Int := if a = 7 then s.pushedSp else s.reg a

/-- The state once SP is decremented and the byte `v` is stored there. -/
def State.pushed (s : State) (v : Int) : State :=
  (s.setReg spIndex s.pushedSp).setMem (Memory.write s.mem s.pushedSp.toNat (BitVec.ofInt 8 v))

/-! ## The rules -/

/-- `s.Raises i k`: executed in `s`, the instruction `i` raises the fatal stop `k` (60_exceptions.md R201, R204). -/
inductive State.Raises (s : State) : Instr → AbortKind → Prop
  | badRegister {i : Instr} (hwf : i.wf = false) : s.Raises i .badRegister
  | alu {n : Mnemonic} {op : Int → Int → Except AbortKind Int} {a b : Fin 8} {k : AbortKind}
      (hop : aluOp s.params n = some op) (hk : op (s.reg a) (s.reg b) = .error k) :
      s.Raises (Instr.ofBytes n (regByte a) (regByte b)) k
  | push {a : Fin 8} (hv : s.regBelow a < 0 ∨ 255 < s.regBelow a) : s.Raises (.push (regByte a)) .cellRange
  | pop {a : Fin 8} (hsp : s.reg 7 < 0 ∨ 255 < s.reg 7) : s.Raises (.pop (regByte a)) .addressOutOfRange
  | call {a : Fin 8} (hpc : s.pc + 2 < 0 ∨ 255 < s.pc + 2) : s.Raises (.call (regByte a)) .cellRange
  | ret (hsp : s.reg 7 < 0 ∨ 255 < s.reg 7) : s.Raises .ret .addressOutOfRange

/-- `s.Executes i t`: the instruction `i`, executed in `s`, leaves the state `t`, a stop included. -/
inductive State.Executes (s : State) : Instr → State → Prop
  | stop {i : Instr} {k : AbortKind} (hk : s.Raises i k) : s.Executes i (s.abort k)
  | alu {n : Mnemonic} {op : Int → Int → Except AbortKind Int} {a b : Fin 8} {v : Int}
      (hop : aluOp s.params n = some op) (hv : op (s.reg a) (s.reg b) = .ok v) :
      s.Executes (Instr.ofBytes n (regByte a) (regByte b)) ((s.setReg a v).advance 3)
  | not (a : Fin 8) :
      s.Executes (.not (regByte a)) ((s.setReg a (aluNot s.params.maskMode (s.reg a))).advance 2)
  | cmp (a b : Fin 8) :
      s.Executes (.cmp (regByte a) (regByte b)) ((s.setFl (compareFlags (s.reg a) (s.reg b) s.fl)).advance 3)
  | ldi (a : Fin 8) (imm : Byte) : s.Executes (.ldi (regByte a) imm) ((s.setReg a (zext8 imm)).advance 3)
  | prn (a : Fin 8) : s.Executes (.prn (regByte a)) ((s.emit (s.reg a)).advance 2)
  | hlt : s.Executes .hlt (s.setRun .halted)
  | push {a : Fin 8} (h0 : 0 ≤ s.regBelow a) (h1 : s.regBelow a ≤ 255) :
      s.Executes (.push (regByte a)) ((s.pushed (s.regBelow a)).advance 2)
  | pop {a : Fin 8} {v : Byte} (hv : memRead s.mem (s.reg 7) = .ok v) :
      s.Executes (.pop (regByte a))
        (((s.setReg a (zext8 v)).setReg spIndex (mask ((s.setReg a (zext8 v)).reg spIndex + 1))).advance 2)
  | call {a : Fin 8} (h0 : 0 ≤ s.pc + 2) (h1 : s.pc + 2 ≤ 255) :
      s.Executes (.call (regByte a)) ((s.pushed (s.pc + 2)).setPc (s.regBelow a))
  | ret {v : Byte} (hv : memRead s.mem (s.reg 7) = .ok v) :
      s.Executes .ret ((s.setPc (zext8 v)).setReg spIndex (mask (s.reg 7 + 1)))

/-! ## The rules are sound: each says what `exec` answers -/

theorem namesRegister_eq_false {a : Byte} : namesRegister a = false ↔ 7 < a.toNat := by
  rw [namesRegister, decide_eq_false_iff_not]
  omega

/-- An instruction with a register byte above 7 stops, whatever it is (30_encoding.md R72). -/
theorem exec_badRegister {i : Instr} (h : i.wf = false) (s : State) : exec i s = .next (s.abort .badRegister) := by
  cases i with
  | hlt | ret => cases h
  | push a | pop a | prn a | call a | not a | ldi a imm => exact ruleR_bad (namesRegister_eq_false.1 h) s _
  | add a b | sub a b | mul a b | div a b | mod a b | cmp a b | and a b | or a b | xor a b | shl a b | shr a b =>
    rw [Instr.wf, Bool.and_eq_false_iff, namesRegister_eq_false, namesRegister_eq_false] at h
    exact ruleRR_bad h s _

theorem State.Raises.exec_eq {s : State} {i : Instr} {k : AbortKind} (h : s.Raises i k) :
    exec i s = .next (s.abort k) := by
  cases h with
  | badRegister hwf => exact exec_badRegister hwf s
  | alu hop hk => exact (exec_aluOp hop _ _).trans (aluRR_error hk)
  | push hv => exact exec_push_error s _ rfl hv
  | pop hsp => exact exec_pop_error s _ hsp
  | call hpc => exact exec_call_error s _ hpc
  | ret hsp => exact exec_ret_error s hsp

theorem State.Executes.exec_eq {s t : State} {i : Instr} (h : s.Executes i t) : exec i s = .next t := by
  cases h with
  | stop hk => exact hk.exec_eq
  | alu hop hv => exact (exec_aluOp hop _ _).trans (aluRR_ok hv)
  | not a => exact exec_not s a
  | cmp a b => exact exec_cmp s a b
  | ldi a imm => exact exec_ldi s a imm
  | prn a => exact exec_prn s a
  | hlt => exact exec_hlt s
  | push h0 h1 => exact exec_push_ok s _ rfl h0 h1
  | pop hv => exact exec_pop_ok s _ hv
  | call h0 h1 => exact exec_call_ok s _ h0 h1
  | ret hv => exact exec_ret_ok s hv

/-! ## The rules are complete: some rule applies to every instruction in every state -/

/-- An instruction of one register operand: a byte above 7 stops it, so only the eight registers matter. -/
theorem executes_of_register {s : State} {i : Byte → Instr} (hwf : ∀ a, (i a).wf = namesRegister a)
    (h : ∀ r : Fin 8, ∃ t, s.Executes (i (regByte r)) t) (a : Byte) : ∃ t, s.Executes (i a) t := by
  rcases reg_cases a with ⟨-, r, rfl, -⟩ | ⟨ha, -⟩
  · exact h r
  · exact ⟨_, .stop (.badRegister (by rw [hwf, namesRegister_eq_false]; exact ha))⟩

theorem executes_of_registers {s : State} {i : Byte → Byte → Instr}
    (hwf : ∀ a b, (i a b).wf = (namesRegister a && namesRegister b))
    (h : ∀ p q : Fin 8, ∃ t, s.Executes (i (regByte p) (regByte q)) t) (a b : Byte) : ∃ t, s.Executes (i a b) t := by
  rcases reg_cases a with ⟨ha, p, rfl, -⟩ | ⟨ha, -⟩
  · refine executes_of_register (fun b => ?_) (h p) b
    rw [hwf, namesRegister, decide_eq_true ha, Bool.true_and]
  · exact ⟨_, .stop (.badRegister (by rw [hwf, namesRegister_eq_false.2 ha, Bool.false_and]))⟩

theorem executes_alu {s : State} {n : Mnemonic} {op : Int → Int → Except AbortKind Int}
    (hop : aluOp s.params n = some op) (a b : Fin 8) :
    ∃ t, s.Executes (Instr.ofBytes n (regByte a) (regByte b)) t := by
  cases hv : op (s.reg a) (s.reg b) with
  | ok v => exact ⟨_, .alu hop hv⟩
  | error k => exact ⟨_, .stop (.alu hop hv)⟩

theorem executes_push (s : State) (a : Fin 8) : ∃ t, s.Executes (.push (regByte a)) t := by
  by_cases hv : s.regBelow a < 0 ∨ 255 < s.regBelow a
  · exact ⟨_, .stop (.push hv)⟩
  · exact ⟨_, .push (by omega) (by omega)⟩

theorem executes_call (s : State) (a : Fin 8) : ∃ t, s.Executes (.call (regByte a)) t := by
  by_cases hpc : s.pc + 2 < 0 ∨ 255 < s.pc + 2
  · exact ⟨_, .stop (.call hpc)⟩
  · exact ⟨_, .call (by omega) (by omega)⟩

theorem executes_pop (s : State) (a : Fin 8) : ∃ t, s.Executes (.pop (regByte a)) t := by
  by_cases hsp : s.reg 7 < 0 ∨ 255 < s.reg 7
  · exact ⟨_, .stop (.pop hsp)⟩
  · exact ⟨_, .pop (memRead_in (by omega) (by omega))⟩

theorem executes_ret (s : State) : ∃ t, s.Executes .ret t := by
  by_cases hsp : s.reg 7 < 0 ∨ 255 < s.reg 7
  · exact ⟨_, .stop (.ret hsp)⟩
  · exact ⟨_, .ret (memRead_in (by omega) (by omega))⟩

theorem executes_ofBytes (s : State) (n : Mnemonic) (a b : Byte) : ∃ t, s.Executes (Instr.ofBytes n a b) t := by
  cases hop : aluOp s.params n with
  | some op => exact executes_of_registers (wf_aluOp hop) (executes_alu hop) a b
  | none =>
    cases n with cases hop
    | hlt => exact ⟨_, .hlt⟩
    | ret => exact executes_ret s
    | push => exact executes_of_register (fun _ => rfl) (executes_push s) a
    | pop => exact executes_of_register (fun _ => rfl) (executes_pop s) a
    | prn => exact executes_of_register (fun _ => rfl) (fun r => ⟨_, .prn r⟩) a
    | call => exact executes_of_register (fun _ => rfl) (executes_call s) a
    | not => exact executes_of_register (fun _ => rfl) (fun r => ⟨_, .not r⟩) a
    | ldi => exact executes_of_register (i := (.ldi · b)) (fun _ => rfl) (fun r => ⟨_, .ldi r b⟩) a
    | cmp => exact executes_of_registers (fun _ _ => rfl) (fun p q => ⟨_, .cmp p q⟩) a b

theorem eq_ofBytes (i : Instr) : ∃ a b, i = Instr.ofBytes i.mnemonic a b := by
  cases i with
  | hlt | ret => exact ⟨0, 0, rfl⟩
  | push a | pop a | prn a | call a | not a => exact ⟨a, 0, rfl⟩
  | ldi a b | add a b | sub a b | mul a b | div a b | mod a b | cmp a b | and a b | or a b | xor a b | shl a b
  | shr a b => exact ⟨a, b, rfl⟩

/-- What `exec` answers is exactly what the rules say. -/
theorem exec_eq_next_iff {i : Instr} {s t : State} : exec i s = .next t ↔ s.Executes i t := by
  refine ⟨fun h => ?_, State.Executes.exec_eq⟩
  obtain ⟨a, b, hi⟩ := eq_ofBytes i
  obtain ⟨u, hu⟩ := executes_ofBytes s i.mnemonic a b
  rw [← hi] at hu
  rw [hu.exec_eq] at h
  cases h
  exact hu

/-! ## The step -/

/-- `s.Steps t`: a step of the running core from `s` leaves `t` (42_execution_loop.md R170 to R173). -/
inductive State.Steps (s : State) : State → Prop
  | fetchOut (hrun : s.run = .running) (hpc : s.pc < 0 ∨ 253 < s.pc) : s.Steps (s.abort .addressOutOfRange)
  | unknown (hrun : s.run = .running) (h0 : 0 ≤ s.pc) (h1 : s.pc ≤ 253)
      (hop : s.params.opcodes.lookup (s.mem.read s.pc.toNat) = none) :
      s.Steps (s.faultOn (s.mem.read s.pc.toNat))
  | instr {i : Instr} {t : State} (hrun : s.run = .running) (h0 : 0 ≤ s.pc) (h1 : s.pc ≤ 253)
      (hi : decode s.params.opcodes (s.mem.read s.pc.toNat) (s.mem.read (s.pc + 1).toNat)
        (s.mem.read (s.pc + 2).toNat) = .ok i)
      (ht : s.Executes i t) : s.Steps t

theorem State.Steps.step_eq {s t : State} (h : s.Steps t) : step s = .next t := by
  cases h with
  | fetchOut hrun hpc => exact step_of_stopped (fetch_out hrun hpc)
  | unknown hrun h0 h1 hop => exact step_of_stopped (by rw [fetch_in hrun h0 h1, decode, hop])
  | instr hrun h0 h1 hi ht => rw [step_of_instr (by rw [fetch_in hrun h0 h1, hi]), ht.exec_eq]

theorem step_eq_next_iff {s t : State} : step s = .next t ↔ s.Steps t := by
  refine ⟨fun h => ?_, State.Steps.step_eq⟩
  by_cases hrun : s.run = .running
  · rcases step_cases hrun with ⟨hpc, he⟩ | ⟨h0, h1, ⟨_, hop, rfl, he⟩ | ⟨i, hi, he⟩⟩
    · rw [he] at h; cases h; exact .fetchOut hrun hpc
    · rw [he] at h; cases h; exact .unknown hrun h0 h1 hop
    · exact .instr hrun h0 h1 hi (exec_eq_next_iff.1 (he ▸ h))
  · rw [step_of_ended hrun] at h; cases h

end Sys2Proof.Machine
end

section
/-! The proofs of the statements of 10_state.md: the invariant of a run, what no instruction or only one writes, what
none reads, and memory's canonical form. Those about instructions and steps are by cases on the rules of
`State.Executes` and `State.Steps`. -/

namespace Sys2Proof.Machine

/-! ## The invariant (10_state.md R23, R25, R26, R29, R32) -/

/-! ### Values in range -/

theorem registerRange_of_byte (mode : MaskMode) {v : Int} (h0 : 0 ≤ v) (h1 : v ≤ 255) : registerRange mode v := by
  cases mode with
  | fixed => exact ⟨h0, h1⟩
  | compat => exact ⟨by omega, h1⟩

theorem registerRange_mask (mode : MaskMode) (v : Int) : registerRange mode (mask v) :=
  registerRange_of_byte mode (mask_nonneg v) (mask_le v)

theorem registerRange_zext8 (mode : MaskMode) (b : Byte) : registerRange mode (zext8 b) :=
  registerRange_of_byte mode (zext8_nonneg b) (zext8_le b)

theorem pcRange_of_registerRange {mode : MaskMode} {v : Int} (h : registerRange mode v) : pcRange mode v := by
  cases mode with
  | fixed => exact ⟨h.1, by have := h.2; omega⟩
  | compat => exact ⟨h.1, by have := h.2; omega⟩

theorem pcRange_of_le (mode : MaskMode) {pc : Int} (h0 : 0 ≤ pc) (h1 : pc ≤ 256) : pcRange mode pc := by
  cases mode with
  | fixed => exact ⟨h0, h1⟩
  | compat => exact ⟨by omega, h1⟩

theorem registerRange_aluNot {mode : MaskMode} {v : Int} (h : registerRange mode v) :
    registerRange mode (aluNot mode v) := by
  cases mode with
  | fixed => exact registerRange_mask _ _
  | compat =>
    obtain ⟨h0, h1⟩ : -256 ≤ v ∧ v ≤ 255 := h
    exact ⟨by simp only [aluNot, bitNot]; omega, by simp only [aluNot, bitNot]; omega⟩

/-- A remainder is smaller than its divisor, so it is in range where the divisor is. -/
theorem floormod_bounds (p : Int) {q : Int} (hq : q ≠ 0) (h0 : -256 ≤ q) (h1 : q ≤ 255) :
    -256 ≤ floormod p q ∧ floormod p q ≤ 255 := by
  have hnonneg := Int.emod_nonneg p hq
  have hlt := Int.emod_lt p hq
  rw [floormod_eq_fmod, Int.fmod_eq_emod]
  split <;> omega

theorem registerRange_aluMod {mode : MaskMode} {va vb v : Int} (hb : registerRange mode vb)
    (h : aluMod mode va vb = .ok v) : registerRange mode v := by
  unfold aluMod at h
  split at h
  · cases h
  · next hz =>
    cases mode with cases h
    | fixed => exact registerRange_mask _ _
    | compat => exact floormod_bounds va hz hb.1 hb.2

theorem aluDiv_eq_mask {mode : DivMode} {va vb v : Int} (h : aluDiv mode va vb = .ok v) : ∃ w, v = mask w := by
  unfold aluDiv at h
  split at h
  · cases h
  · cases mode with cases h
    | floor => exact ⟨_, rfl⟩
    | trunc => exact ⟨_, rfl⟩

theorem aluShl_eq_mask {va vb v : Int} (h : aluShl va vb = .ok v) : ∃ w, v = mask w := by
  rw [aluShl] at h
  split at h
  · cases h
  · cases h; exact ⟨_, rfl⟩

theorem aluShr_eq_mask {va vb v : Int} (h : aluShr va vb = .ok v) : ∃ w, v = mask w := by
  rw [aluShr] at h
  split at h
  · cases h
  · cases h; exact ⟨_, rfl⟩

/-- Of the operations that write a register, all but MOD mask their result. -/
theorem aluOp_eq_mask {p : Params} {n : Mnemonic} {op : Int → Int → Except AbortKind Int} (hop : aluOp p n = some op)
    (hn : n ≠ .mod) {va vb v : Int} (hv : op va vb = .ok v) : ∃ w, v = mask w := by
  cases n with cases hop
  | add | sub | mul | and | or | xor => cases hv; exact ⟨_, rfl⟩
  | div => exact aluDiv_eq_mask hv
  | mod => exact absurd rfl hn
  | shl => exact aluShl_eq_mask hv
  | shr => exact aluShr_eq_mask hv

theorem registerRange_aluOp {p : Params} {n : Mnemonic} {op : Int → Int → Except AbortKind Int}
    (hop : aluOp p n = some op) {va vb v : Int} (hb : registerRange p.maskMode vb) (hv : op va vb = .ok v) :
    registerRange p.maskMode v := by
  by_cases hn : n = .mod
  · subst hn; cases hop; exact registerRange_aluMod hb hv
  · obtain ⟨w, rfl⟩ := aluOp_eq_mask hop hn hv
    exact registerRange_mask _ w

theorem compareFlags_one_bit (va vb : Int) (fl : FlagBits) :
    compareFlags va vb fl = 0b001 ∨ compareFlags va vb fl = 0b010 ∨ compareFlags va vb fl = 0b100 := by
  rw [compareFlags_eq]
  split_ifs
  · exact .inl rfl
  · exact .inr (.inl rfl)
  · exact .inr (.inr rfl)

/-! ### What each update of the state needs to keep the invariant -/

theorem pushed_mem_wf {s : State} (hm : s.mem.wf) (v : Int) : (s.pushed v).mem.wf :=
  Memory.wf_write _ hm ((Int.toNat_lt (pushedSp_nonneg s)).2 (Int.lt_add_one_of_le (pushedSp_le s)))

section
variable {s : State} (h : s.Inv)
include h

theorem State.Inv.setReg (r : Fin 8) {v : Int} (hv : registerRange s.params.maskMode v) : (s.setReg r v).Inv where
  __ := h
  regs q := by
    rw [setReg_reg]
    split
    · exact hv
    · exact h.regs q

theorem State.Inv.setPc {pc : Int} (hpc : pcRange s.params.maskMode pc) : (s.setPc pc).Inv where
  __ := h
  pc := hpc

theorem State.Inv.setFl {fl : FlagBits} (hfl : legalFlags fl) : (s.setFl fl).Inv where
  __ := h
  fl := hfl

theorem State.Inv.setMem {m : Memory} (hm : m.wf) : (s.setMem m).Inv where
  __ := h
  mem := hm

theorem State.Inv.emit {v : Int} (hv : registerRange s.params.maskMode v) : (s.emit v).Inv where
  __ := h
  out w hw := by
    rcases List.mem_append.1 hw with hw | hw
    · exact h.out w hw
    · exact List.mem_singleton.1 hw ▸ hv

theorem State.Inv.setRun (r : RunState) : (s.setRun r).Inv where
  __ := h

theorem State.Inv.pushed (v : Int) : (s.pushed v).Inv :=
  (h.setReg spIndex (registerRange_mask _ _)).setMem (pushed_mem_wf h.mem v)

theorem State.Inv.regBelow (a : Fin 8) : registerRange s.params.maskMode (s.regBelow a) := by
  rw [State.regBelow]
  split
  · exact registerRange_mask _ _
  · exact h.regs a

theorem State.Executes.inv {i : Instr} {t : State} (h0 : 0 ≤ s.pc) (h1 : s.pc ≤ 253) (hx : s.Executes i t) : t.Inv := by
  have hwidth {w : Int} (hw0 : 0 ≤ w) (hw3 : w ≤ 3) : pcRange s.params.maskMode (s.pc + w) :=
    pcRange_of_le _ (by omega) (by omega)
  cases hx with
  | stop hk => exact h.setRun _
  | alu hop hv =>
    exact (h.setReg _ (registerRange_aluOp hop (h.regs _) hv)).setPc (hwidth (by decide) (by decide))
  | not a => exact (h.setReg a (registerRange_aluNot (h.regs a))).setPc (hwidth (by decide) (by decide))
  | cmp a b => exact (h.setFl (.inr (compareFlags_one_bit _ _ _))).setPc (hwidth (by decide) (by decide))
  | ldi a imm => exact (h.setReg a (registerRange_zext8 _ imm)).setPc (hwidth (by decide) (by decide))
  | prn a => exact (h.emit (h.regs a)).setPc (hwidth (by decide) (by decide))
  | hlt => exact h.setRun _
  | push => exact (h.pushed _).setPc (hwidth (by decide) (by decide))
  | pop =>
    exact ((h.setReg _ (registerRange_zext8 _ _)).setReg spIndex (registerRange_mask _ _)).setPc
      (hwidth (by decide) (by decide))
  | call => exact (h.pushed _).setPc (pcRange_of_registerRange (h.regBelow _))
  | ret =>
    exact (h.setPc (pcRange_of_registerRange (registerRange_zext8 _ _))).setReg spIndex (registerRange_mask _ _)

end

/-- Settles O41: a step stops, which touches the run state alone, or runs an instruction fetched at 0..253, which keeps
the invariant as each update it makes does. -/
theorem stepKeepsInvariant : Obligations.StepKeepsInvariant := by
  intro s t h hstep
  cases step_eq_next_iff.1 hstep with
  | fetchOut => exact h.setRun _
  | unknown => exact h.setRun _
  | instr _ h0 h1 _ hx => exact hx.inv h h0 h1

/-- Settles O42: at reset every value is zero, memory lists nothing and the default opcode bytes differ. -/
theorem resetMeetsInvariant : Obligations.ResetMeetsInvariant where
  mem := ⟨.nil, fun _ hc => nomatch hc⟩
  regs r := by rw [reset_reg]; exact registerRange_of_byte _ (by decide) (by decide)
  fl := .inl rfl
  pc := pcRange_of_le _ (by decide) (by decide)
  out _ hv := nomatch hv
  opcodes := by decide

/-- Settles O43: an unlisted cell reads as its reset contents, and reset lists none. -/
theorem resetState : Obligations.ResetState := by
  refine ⟨fun addr h0 h1 => ?_, reset_reg, rfl, rfl, rfl, rfl⟩
  have h7 : addr.toNat = 7 ↔ addr = 7 := by omega
  rw [memRead_in h0 h1, reset_mem, Memory.read, resetByte]
  simp only [h7, mem7Init]

/-! ## What an instruction leaves unchanged (10_state.md R20, R22, R25, R26, R29) -/

section
variable {s t : State} {i : Instr}

theorem State.Executes.params_eq (h : s.Executes i t) : t.params = s.params := by cases h <;> rfl

theorem State.Executes.fl_eq (h : s.Executes i t) (hi : i.mnemonic ≠ .cmp) : t.fl = s.fl := by
  cases h with
  | cmp a b => exact absurd rfl hi
  | _ => rfl

/-- An instruction leaves FL as it is or with exactly one bit set. -/
theorem State.Executes.fl_one_bit (h : s.Executes i t) (hfl : t.fl ≠ s.fl) :
    t.fl = 0b001 ∨ t.fl = 0b010 ∨ t.fl = 0b100 := by
  cases h with
  | cmp a b => exact compareFlags_one_bit _ _ _
  | _ => exact absurd rfl hfl

theorem State.Executes.out_cases (h : s.Executes i t) :
    t.out = s.out ∨ ∃ a : Fin 8, i = .prn (regByte a) ∧ t.out = s.out ++ [s.reg a] := by
  cases h with
  | prn a => exact .inr ⟨a, rfl, rfl⟩
  | _ => exact .inl rfl

theorem State.Executes.reg_eq (h : s.Executes i t) {r : Fin 8} (hr : regByte r ∉ registersWritten i) :
    t.reg r = s.reg r := by
  have hne {q : Fin 8} (hq : regByte q ∈ registersWritten i) : r ≠ q := fun e => hr (e ▸ hq)
  cases h with
  | alu hop hv => exact setReg_reg_ne s _ (hne (by rw [registersWritten_aluOp hop]; exact .head _))
  | not a => exact setReg_reg_ne s _ (hne (.head _))
  | ldi a imm => exact setReg_reg_ne s _ (hne (.head _))
  | pop => exact (setReg_reg_ne _ _ (hne (.tail _ (.head _)))).trans (setReg_reg_ne s _ (hne (.head _)))
  | push | call => exact setReg_reg_ne s _ (hne (.head _))
  | ret => exact setReg_reg_ne (s.setPc _) _ (hne (.head _))
  | _ => rfl

theorem State.Executes.pc_eq (h : s.Executes i t) (ht : t.run = .running) (hcall : i.mnemonic ≠ .call)
    (hret : i.mnemonic ≠ .ret) : t.pc = s.pc + i.width := by
  cases h with
  | stop | hlt => cases ht
  | alu hop hv => rw [width_aluOp hop]; rfl
  | call => exact absurd rfl hcall
  | ret => exact absurd rfl hret
  | _ => rfl

end

/-- Settles O45: stops, faults and every instruction keep the parameters. -/
theorem parametersAreConstant : Obligations.ParametersAreConstant := by
  intro s t h
  cases step_eq_next_iff.1 h with
  | fetchOut => rfl
  | unknown => rfl
  | instr _ _ _ _ hx => exact hx.params_eq

/-- Settles O46: of the rules CMP's alone sets FL, to the one bit of its comparison. -/
theorem onlyCmpWritesFlags : Obligations.OnlyCmpWritesFlags := fun _ _ _ h =>
  ⟨(exec_eq_next_iff.1 h).fl_eq, (exec_eq_next_iff.1 h).fl_one_bit⟩

/-- Settles O48: of the rules PRN's alone emits. -/
theorem onlyPrnExtendsOutput : Obligations.OnlyPrnExtendsOutput := fun _ _ _ h => (exec_eq_next_iff.1 h).out_cases

/-- Settles O50: a register write leaves every other register alone, and each rule's writes are its row's. -/
theorem onlyListedRegistersWritten : Obligations.OnlyListedRegistersWritten := fun _ _ _ _ h =>
  (exec_eq_next_iff.1 h).reg_eq

/-- Settles O52: an instruction that stops or halts is no longer running; any other that is no jump moves pc by its
width. -/
theorem programCounterMovesByWidth : Obligations.ProgramCounterMovesByWidth := fun _ _ _ _ h =>
  (exec_eq_next_iff.1 h).pc_eq

/-! ## What an instruction reads (10_state.md R22, R27)

FL is left out of the agreement of two states: no rule has it in a premise, and CMP overwrites it whole. -/

/-- The states agree in the registers of `visible` and in everything but the registers and FL. -/
structure AgreeOn (visible : Fin 8 → Prop) (s u : State) : Prop where
  reg : ∀ q, visible q → u.reg q = s.reg q
  mem : u.mem = s.mem
  pc : u.pc = s.pc
  out : u.out = s.out
  run : u.run = s.run
  params : u.params = s.params

namespace AgreeOn

variable {visible : Fin 8 → Prop} {s u : State} (h : AgreeOn visible s u)
include h

theorem setReg (r : Fin 8) {v w : Int} (hv : w = v) : AgreeOn visible (s.setReg r v) (u.setReg r w) where
  __ := h
  reg q hq := by rw [setReg_reg, setReg_reg, h.reg q hq, hv]

theorem setPc {v w : Int} (hv : w = v) : AgreeOn visible (s.setPc v) (u.setPc w) where
  __ := h
  pc := hv

theorem advance (width : Int) : AgreeOn visible (s.advance width) (u.advance width) :=
  h.setPc (by rw [h.pc])

theorem setMem {m m' : Memory} (hm : m' = m) : AgreeOn visible (s.setMem m) (u.setMem m') where
  __ := h
  mem := hm

theorem setFl (f g : FlagBits) : AgreeOn visible (s.setFl f) (u.setFl g) where
  __ := h

theorem emit {v w : Int} (hv : w = v) : AgreeOn visible (s.emit v) (u.emit w) where
  __ := h
  out := by rw [emit_out, emit_out, h.out, hv]

theorem setRun {r r' : RunState} (hr : r' = r) : AgreeOn visible (s.setRun r) (u.setRun r') where
  __ := h
  run := hr

theorem abort (k : AbortKind) : AgreeOn visible (s.abort k) (u.abort k) :=
  h.setRun (by rw [h.pc])

theorem pushedSp (hsp : visible 7) : u.pushedSp = s.pushedSp := by
  rw [State.pushedSp, State.pushedSp, h.reg spIndex hsp]

theorem regBelow (hsp : visible 7) {a : Fin 8} (ha : visible a) : u.regBelow a = s.regBelow a := by
  rw [State.regBelow, State.regBelow, h.pushedSp hsp, h.reg a ha]

theorem pushed (hsp : visible 7) {v w : Int} (hv : w = v) : AgreeOn visible (s.pushed v) (u.pushed w) :=
  (h.setReg spIndex (h.pushedSp hsp)).setMem (by rw [h.pushedSp hsp, h.mem, hv])

theorem raises {i : Instr} {k : AbortKind} (hreads : ∀ q, regByte q ∈ registersRead i → visible q)
    (hs : s.Raises i k) : u.Raises i k := by
  cases hs with
  | badRegister hwf => exact .badRegister hwf
  | @alu n op a b k hop hk =>
    rw [registersRead_aluOp hop] at hreads
    refine .alu (h.params ▸ hop) ?_
    rw [h.reg a (hreads a (.head _)), h.reg b (hreads b (.tail _ (.head _))), hk]
  | @push a hv => exact .push ((h.regBelow (hreads 7 (.head _)) (hreads a (.tail _ (.head _)))).symm ▸ hv)
  | pop hsp => exact .pop ((h.reg 7 (hreads 7 (.head _))).symm ▸ hsp)
  | call hpc => exact .call (h.pc.symm ▸ hpc)
  | ret hsp => exact .ret ((h.reg 7 (hreads 7 (.head _))).symm ▸ hsp)

/-- What an instruction does is determined by the registers its row of R22 names: from a state that agrees in these it
leaves a state that agrees with the one it left, and the same FL where FL was the same. -/
theorem executes {i : Instr} {t : State} (hreads : ∀ q, regByte q ∈ registersRead i → visible q)
    (hs : s.Executes i t) : ∃ w, u.Executes i w ∧ AgreeOn visible t w ∧ (u.fl = s.fl → w.fl = t.fl) := by
  cases hs with
  | stop hk => exact ⟨_, .stop (h.raises hreads hk), h.abort _, id⟩
  | @alu n op a b v hop hv =>
    rw [registersRead_aluOp hop] at hreads
    refine ⟨_, .alu (v := v) (h.params ▸ hop) ?_, (h.setReg a rfl).advance 3, id⟩
    rw [h.reg a (hreads a (.head _)), h.reg b (hreads b (.tail _ (.head _))), hv]
  | not a => exact ⟨_, .not a, (h.setReg a (by rw [h.params, h.reg a (hreads a (.head _))])).advance 2, id⟩
  | cmp a b =>
    refine ⟨_, .cmp a b, (h.setFl _ _).advance 3, fun _ => ?_⟩
    rw [advance_fl, advance_fl, setFl_fl, setFl_fl, compareFlags_eq, compareFlags_eq, h.reg a (hreads a (.head _)),
      h.reg b (hreads b (.tail _ (.head _)))]
  | ldi a imm => exact ⟨_, .ldi a imm, (h.setReg a rfl).advance 3, id⟩
  | prn a => exact ⟨_, .prn a, (h.emit (h.reg a (hreads a (.head _)))).advance 2, id⟩
  | hlt => exact ⟨_, .hlt, h.setRun rfl, id⟩
  | @push a h0 h1 =>
    have hsp : visible 7 := hreads 7 (.head _)
    have hv : u.regBelow a = s.regBelow a := h.regBelow hsp (hreads a (.tail _ (.head _)))
    exact ⟨_, .push (hv ▸ h0) (hv ▸ h1), (h.pushed hsp hv).advance 2, id⟩
  | @pop a v hv =>
    have hsp : visible 7 := hreads 7 (.head _)
    have hx : AgreeOn visible (s.setReg a (zext8 v)) (u.setReg a (zext8 v)) := h.setReg a rfl
    refine ⟨_, .pop (v := v) ?_, (hx.setReg spIndex (by rw [hx.reg spIndex hsp])).advance 2, id⟩
    rw [h.mem, h.reg 7 hsp, hv]
  | @call a h0 h1 =>
    have hsp : visible 7 := hreads 7 (.head _)
    exact ⟨_, .call (h.pc ▸ h0) (h.pc ▸ h1),
      (h.pushed hsp (by rw [h.pc])).setPc (h.regBelow hsp (hreads a (.tail _ (.head _)))), id⟩
  | @ret v hv =>
    have hsp : u.reg 7 = s.reg 7 := h.reg 7 (hreads 7 (.head _))
    refine ⟨_, .ret (v := v) ?_, (h.setPc rfl).setReg spIndex (by rw [hsp]), id⟩
    rw [h.mem, hsp, hv]

end AgreeOn

/-- Settles O47: the fetch does not look at FL, and an instruction from states that agree in all but FL leaves such
states. -/
theorem noStepDependsOnFlags : Obligations.NoStepDependsOnFlags := by
  intro s t f h
  cases step_eq_next_iff.1 h with
  | fetchOut hrun hpc => exact ⟨_, (State.Steps.fetchOut (s := s.setFl f) hrun hpc).step_eq, rfl⟩
  | unknown hrun h0 h1 hop => exact ⟨_, (State.Steps.unknown (s := s.setFl f) hrun h0 h1 hop).step_eq, rfl⟩
  | instr hrun h0 h1 hi hx =>
    have hagree : AgreeOn (fun _ => True) s (s.setFl f) := ⟨fun _ _ => rfl, rfl, rfl, rfl, rfl, rfl⟩
    obtain ⟨u, hu, ht, -⟩ := hagree.executes (fun _ _ => trivial) hx
    exact ⟨u, (State.Steps.instr (s := s.setFl f) hrun h0 h1 hi hu).step_eq,
      State.ext_regs ht.mem (fun q => ht.reg q trivial) ht.pc rfl ht.run ht.out ht.params⟩

/-- Settles O51: writing an unread register gives a state that agrees in all the registers read. -/
theorem onlyListedRegistersRead : Obligations.OnlyListedRegistersRead := by
  intro i s t r v h hr
  have hagree : AgreeOn (· ≠ r) s (s.setReg r v) := ⟨fun _ => setReg_reg_ne s v, rfl, rfl, rfl, rfl, rfl⟩
  obtain ⟨u, hu, ht, hfl⟩ := hagree.executes (fun q hq e => hr (e ▸ hq)) (exec_eq_next_iff.1 h)
  exact ⟨u, hu.exec_eq, ht.reg, ht.mem, ht.pc, hfl rfl, ht.out, ht.run⟩

/-! ## Consecutive pushes (10_state.md R24, 70_reset_and_hazards.md R226) -/

/-- A push of a byte stores it below the old SP. -/
theorem memRead_pushed_self {s : State} (hm : s.mem.wf) {v : Int} (h0 : 0 ≤ v) (h1 : v ≤ 255) :
    memRead (s.pushed v).mem s.pushedSp = .ok (BitVec.ofInt 8 v) :=
  memRead_memWrite_same hm (memWrite_in (pushedSp_nonneg s) (pushedSp_le s) h0 h1)

/-- Where memory already holds the byte pushed, the push changes nothing. -/
theorem memRead_pushed_of_eq {s : State} (hm : s.mem.wf) {v addr : Int} (h0 : 0 ≤ v) (h1 : v ≤ 255)
    (h : memRead s.mem addr = .ok (BitVec.ofInt 8 v)) : memRead (s.pushed v).mem addr = .ok (BitVec.ofInt 8 v) := by
  by_cases he : addr = s.pushedSp
  · rw [he, memRead_pushed_self hm h0 h1]
  · rw [← h]
    exact memRead_memWrite_ne (memWrite_in (pushedSp_nonneg s) (pushedSp_le s) h0 h1) he

/-- PUSH of a register other than R7 that holds a byte completes; a cell that holds the byte already keeps it. -/
theorem exec_push_byte {s : State} {a : Fin 8} (ha : a ≠ 7) (hm : s.mem.wf) (h0 : 0 ≤ s.reg a) (h1 : s.reg a ≤ 255) :
    ∃ t, exec (.push (regByte a)) s = .next t ∧ t.mem.wf ∧ t.reg a = s.reg a ∧ t.reg 7 = (s.reg 7 - 1) % 256 ∧
      t.pc = s.pc + 2 ∧ memRead t.mem ((s.reg 7 - 1) % 256) = .ok (BitVec.ofInt 8 (s.reg a)) ∧
      ∀ addr, memRead s.mem addr = .ok (BitVec.ofInt 8 (s.reg a)) →
        memRead t.mem addr = .ok (BitVec.ofInt 8 (s.reg a)) := by
  have hv : s.regBelow a = s.reg a := if_neg ha
  have hx := (State.Executes.push (s := s) (a := a) (hv ▸ h0) (hv ▸ h1)).exec_eq
  rw [hv] at hx
  exact ⟨_, hx, pushed_mem_wf hm _, setReg_reg_ne s _ ha, setReg_reg_self s spIndex _, rfl,
    memRead_pushed_self hm h0 h1, fun _ => memRead_pushed_of_eq hm h0 h1⟩

/-- The pushes, with what an induction over their number needs: a cell that holds the value already keeps it, so a
cell once pushed to is not lost when SP comes round to it again. -/
theorem execAll_replicate_push {a : Fin 8} (ha : a ≠ 7) (k : Nat) {s : State} (hm : s.mem.wf) (h0 : 0 ≤ s.reg a)
    (h1 : s.reg a ≤ 255) (hsp0 : 0 ≤ s.reg 7) (hsp1 : s.reg 7 ≤ 255) :
    ∃ t, execAll (List.replicate k (.push (regByte a))) s = some t ∧ t.reg 7 = (s.reg 7 - k) % 256 ∧
      t.pc = s.pc + 2 * k ∧
      (∀ addr, memRead s.mem addr = .ok (BitVec.ofInt 8 (s.reg a)) →
        memRead t.mem addr = .ok (BitVec.ofInt 8 (s.reg a))) ∧
      ∀ j : Nat, 1 ≤ j → j ≤ k → memRead t.mem ((s.reg 7 - j) % 256) = .ok (BitVec.ofInt 8 (s.reg a)) := by
  induction k generalizing s with
  | zero => exact ⟨s, rfl, by omega, by omega, fun _ h => h, fun j _ _ => by omega⟩
  | succ k ih =>
    obtain ⟨u, hu, hum, hreg, husp, hupc, hcell, hstay⟩ := exec_push_byte ha hm h0 h1
    obtain ⟨t, ht, htsp, htpc, hkept, hcells⟩ := ih hum (hreg ▸ h0) (hreg ▸ h1) (by omega) (by omega)
    rw [hreg] at hkept hcells
    refine ⟨t, ?_, by omega, by omega, fun addr h => hkept addr (hstay addr h), fun j hj1 hjk => ?_⟩
    · rw [List.replicate_succ, execAll, hu]
      exact ht
    · obtain rfl | hj := Nat.eq_or_lt_of_le hj1
      · exact hkept _ hcell
      · have hprev := hcells (j - 1) (by omega) (by omega)
        rwa [show (u.reg 7 - (j - 1 : Nat)) % 256 = (s.reg 7 - j) % 256 by omega] at hprev

/-- Settles O19, by induction on the number of pushes. -/
theorem consecutivePushesFillMemoryDownward : Obligations.ConsecutivePushesFillMemoryDownward := by
  intro s a k hm ha h0 h1 hsp0 hsp1
  obtain ⟨t, ht, hsp, hpc, -, hcells⟩ := execAll_replicate_push ha k hm h0 h1 hsp0 hsp1
  exact ⟨t, ht, hsp, hpc, hcells⟩

/-! ## The canonical form of memory (10_state.md R32) -/

theorem Memory.read_of_mem {m : Memory} (hm : m.wf) {c : Host.Cell} (hc : c ∈ m) : m.read c.1 = c.2 := by
  induction m with
  | nil => cases hc
  | cons d rest ih =>
    rcases List.mem_cons.1 hc with rfl | hc
    · exact if_pos rfl
    · have hlt : d.1 < c.1 := Memory.wf_above hm c hc
      exact (if_neg hlt.ne).trans (ih (Memory.wf_tail hm) hc)

theorem Memory.mem_of_read_ne {m : Memory} {addr : Nat} (h : m.read addr ≠ resetByte addr) :
    (addr, m.read addr) ∈ m := by
  induction m with
  | nil => exact absurd rfl h
  | cons d rest ih =>
    obtain ⟨k, v⟩ := d
    rw [Memory.read] at h ⊢
    split
    · next he => exact he ▸ .head _
    · next he => rw [if_neg he] at h; exact .tail _ (ih h)

/-- What a canonical memory lists is determined by what it reads as. -/
theorem Memory.mem_iff_read {m : Memory} (hm : m.wf) {c : Host.Cell} :
    c ∈ m ↔ c.1 < memSize ∧ m.read c.1 = c.2 ∧ c.2 ≠ resetByte c.1 := by
  refine ⟨fun hc => ⟨(hm.2 c hc).1, Memory.read_of_mem hm hc, (hm.2 c hc).2⟩, fun ⟨_, hread, hne⟩ => ?_⟩
  have := Memory.mem_of_read_ne (m := m) (hread.symm ▸ hne)
  rwa [hread] at this

theorem Memory.read_eq_of_memRead_eq {m m' : Memory} {addr : Nat} (haddr : addr < memSize)
    (h : memRead m addr = memRead m' addr) : m.read addr = m'.read addr := by
  have hle : (addr : Int) ≤ 255 := Int.le_of_lt_add_one (Int.ofNat_lt.2 haddr)
  rw [memRead_in (Int.natCast_nonneg addr) hle, memRead_in (Int.natCast_nonneg addr) hle] at h
  exact Except.ok.inj h

/-- Settles O54: both lists are strictly sorted and list the same cells. -/
theorem canonicalMemoryIsUnique : Obligations.CanonicalMemoryIsUnique := by
  intro m m' hm hm' hread
  have hasymm : Std.Asymm fun c d : Host.Cell => c.1 < d.1 := ⟨fun _ _ h => Nat.lt_asymm h⟩
  refine hm.1.eq_of_mem_iff hm'.1 fun c => ?_
  rw [Memory.mem_iff_read hm, Memory.mem_iff_read hm']
  refine and_congr_right fun hc => ?_
  rw [Memory.read_eq_of_memRead_eq hc (hread c.1)]

end Sys2Proof.Machine
end

section
/-! The proofs of the statements of 20_memory.md: the two primitives, which instructions write memory and where, and
that a word placed at the fetch address is what the next step runs. -/

namespace Sys2Proof.Machine

/-! ## The primitives (20_memory.md R51) -/

theorem memWrite_out {m : Memory} {addr v : Int} (h : addr < 0 ∨ 255 < addr) :
    memWrite m addr v = .error .addressOutOfRange :=
  if_pos h

/-- Settles O53: the checks in their order, and the laws of a read after a write. -/
theorem memoryPrimitivesBehave : Obligations.MemoryPrimitivesBehave := by
  refine fun m addr v hm => ⟨fun h => ⟨memRead_out h, memWrite_out h⟩, fun ⟨h0, h1⟩ =>
    ⟨⟨_, memRead_in h0 h1⟩, memWrite_value_out h0 h1, fun ⟨hv0, hv1⟩ => ?_⟩⟩
  have hwrite := memWrite_in (m := m) h0 h1 hv0 hv1
  exact ⟨_, hwrite, memWrite_wf hm hwrite, memRead_memWrite_same hm hwrite, fun _ => memRead_memWrite_ne hwrite⟩

/-! ## Which instructions write memory (20_memory.md R50, 10_state.md R32) -/

/-- A push of a byte leaves every cell but the one below the old SP alone. -/
theorem sameMemoryBut_pushed {s : State} {v : Int} (h0 : 0 ≤ v) (h1 : v ≤ 255) :
    SameMemoryBut s.pushedSp s (s.pushed v) := fun _ =>
  memRead_memWrite_ne (memWrite_in (pushedSp_nonneg s) (pushedSp_le s) h0 h1)

section
variable {s t : State} {i : Instr}

theorem State.Executes.mem_eq (h : s.Executes i t) (hpush : i.mnemonic ≠ .push) (hcall : i.mnemonic ≠ .call) :
    t.mem = s.mem := by
  cases h with
  | push => exact absurd rfl hpush
  | call => exact absurd rfl hcall
  | _ => rfl

theorem State.Executes.sameMemoryBut (h : s.Executes i t) : SameMemoryBut s.pushedSp s t := by
  cases h with
  | push h0 h1 | call h0 h1 => exact sameMemoryBut_pushed h0 h1
  | _ => exact fun _ _ => rfl

end

/-- Settles O49: of the rules those of PUSH and CALL alone change memory, both by the one push. -/
theorem onlyPushAndCallWriteMemory : Obligations.OnlyPushAndCallWriteMemory := by
  intro i s t h
  have hx := exec_eq_next_iff.1 h
  exact ⟨fun hpush hcall addr => by rw [hx.mem_eq hpush hcall], hx.sameMemoryBut⟩

/-! ## A word placed at the fetch address (20_memory.md R61, 42_execution_loop.md R171) -/

theorem decodeTableWord_eq_some {nbits w : Nat} {i : Instr} :
    decodeTableWord nbits w = some i ↔ decodeBytes OpcodeMap.ls8 (tableBytes nbits w) = .ok i := by
  unfold decodeTableWord
  cases decodeBytes OpcodeMap.ls8 (tableBytes nbits w) <;> simp

theorem storeAtFetch_of_fetchable {s : State} (h0 : 0 ≤ s.pc) (h1 : s.pc ≤ 253) (bytes : List Byte) :
    s.storeAtFetch bytes = s.setMem (storeBytes s.mem s.pc.toNat bytes) :=
  if_neg (by omega)

/-- The three bytes stored where the next fetch reads are the bytes it decodes. -/
theorem fetch_storeAtFetch {s : State} {op a b : Byte} {i : Instr} (hm : s.mem.wf) (hrun : s.run = .running)
    (h0 : 0 ≤ s.pc) (h1 : s.pc ≤ 253) (hi : decode s.params.opcodes op a b = .ok i) :
    fetch (s.storeAtFetch [op, a, b]) = .instr i := by
  have hread {addr : Nat} (k : Nat) (hk : k < 3) (haddr : addr = s.pc.toNat + k) :
      (storeBytes s.mem s.pc.toNat [op, a, b]).read addr = [op, a, b][k] :=
    haddr ▸ read_storeBytes_at hm _ hk (show s.pc.toNat + 3 ≤ 256 by omega)
  rw [storeAtFetch_of_fetchable h0 h1]
  generalize storeBytes s.mem s.pc.toNat [op, a, b] = m at hread ⊢
  have hop : m.read s.pc.toNat = op := hread 0 (by decide) rfl
  have ha : m.read (s.pc + 1).toNat = a := hread 1 (by decide) (by omega)
  have hb : m.read (s.pc + 2).toNat = b := hread 2 (by decide) (by omega)
  rw [fetch_in (s := s.setMem m) hrun h0 h1, setMem_mem, setMem_pc, setMem_params, hop, ha, hb, hi]

/-- Settles O55: the three bytes of the word are what the step fetches. -/
theorem placedWordIsRunNext : Obligations.PlacedWordIsRunNext := by
  intro s nbits w i hm hrun h0 h1 hmap hw
  have hi := decodeTableWord_eq_some.1 hw
  rw [← hmap] at hi
  exact step_of_instr (fetch_storeAtFetch hm hrun h0 h1 hi)

end Sys2Proof.Machine
end

section
/-! The proofs of the statements of 30_encoding.md about bytes: the OPCODE map selects an instruction by its whole byte,
decoding and encoding are each other's inverse, and BAD_REGISTER tells the ill-formed instructions. -/

namespace Sys2Proof.Machine

/-! ## The OPCODE map (30_encoding.md R74 to R76) -/

section
variable {m : OpcodeMap} {n : Mnemonic} {op a b : Byte} {i : Instr}

theorem mem_mnemonicAll (n : Mnemonic) : n ∈ Mnemonic.all := by cases n <;> decide

/-- Where the mnemonics' keys differ, the first mnemonic with the key of `n` is `n`. -/
theorem find?_mnemonic {β : Type} [BEq β] [LawfulBEq β] {f : Mnemonic → β} (hf : (Mnemonic.all.map f).Nodup)
    (n : Mnemonic) : (Mnemonic.all.find? fun k => f k == f n) = some n := by
  cases h : Mnemonic.all.find? fun k => f k == f n with
  | none => exact absurd BEq.rfl (List.find?_eq_none.1 h n (mem_mnemonicAll n))
  | some k =>
    have hkey := List.find?_some h
    rw [List.inj_on_of_nodup_map hf (mem_mnemonicAll k) (mem_mnemonicAll n) (eq_of_beq hkey)]

theorem lookup_eq_none : m.lookup op = none ↔ ∀ n, m.byte n ≠ op := by
  simp [OpcodeMap.lookup, mem_mnemonicAll]

/-- The mnemonic found has the whole byte, on an injective map or not. -/
theorem byte_of_lookup (h : m.lookup op = some n) : m.byte n = op := by
  have hbeq := List.find?_some h
  exact eq_of_beq hbeq

theorem lookup_byte (hm : m.Valid) (n : Mnemonic) : m.lookup (m.byte n) = some n := find?_mnemonic hm n

/-! ## Decoding -/

theorem decode_of_lookup_some (h : m.lookup op = some n) : decode m op a b = .ok (Instr.ofBytes n a b) := by
  rw [decode, h]

theorem decode_of_lookup_none (h : m.lookup op = none) : decode m op a b = .error (.unknownOpcode op) := by
  rw [decode, h]

/-- Everything that decodes is the instruction of the mnemonic found. -/
theorem decode_eq_ok : decode m op a b = .ok i ↔ ∃ n, m.lookup op = some n ∧ Instr.ofBytes n a b = i := by
  cases h : m.lookup op with
  | none => simp [decode_of_lookup_none h]
  | some n => simp [decode_of_lookup_some h]

theorem decode_eq_error : decode m op a b = .error (.unknownOpcode op) ↔ m.lookup op = none := by
  cases h : m.lookup op with
  | none => simp [decode_of_lookup_none h]
  | some n => simp [decode_of_lookup_some h]

theorem decode_byte (hm : m.Valid) (n : Mnemonic) (a b : Byte) :
    decode m (m.byte n) a b = .ok (Instr.ofBytes n a b) :=
  decode_of_lookup_some (lookup_byte hm n)

/-! ## Encoding (30_encoding.md R71, R77) -/

@[simp] theorem mnemonic_ofBytes (n : Mnemonic) (a b : Byte) : (Instr.ofBytes n a b).mnemonic = n := by
  cases n <;> rfl

@[simp] theorem width_ofBytes (n : Mnemonic) (a b : Byte) : (Instr.ofBytes n a b).width = n.width := by
  rw [Instr.width, mnemonic_ofBytes]

/-- The bytes of an instruction are the first of opcode, byte 1 and byte 2, as many as it is wide. -/
theorem encode_ofBytes (m : OpcodeMap) (n : Mnemonic) (a b : Byte) :
    encode m (Instr.ofBytes n a b) = [m.byte n, a, b].take n.width := by
  cases n <;> rfl

theorem encode_length (m : OpcodeMap) (i : Instr) : (encode m i).length = i.width := by
  obtain ⟨a, b, hi⟩ := eq_ofBytes i
  rw [hi, encode_ofBytes, width_ofBytes]
  cases i.mnemonic <;> rfl

/-- Two bytes behind an encoding fill it up to the three that are decoded: operands the format lacks come from there. -/
theorem encode_append_pair (m : OpcodeMap) (i : Instr) (p q : Byte) :
    ∃ a b rest, encode m i ++ [p, q] = m.byte i.mnemonic :: a :: b :: rest ∧ Instr.ofBytes i.mnemonic a b = i := by
  cases i with
  | hlt | ret => exact ⟨p, q, [], rfl, rfl⟩
  | push a | pop a | prn a | call a | not a => exact ⟨a, p, [q], rfl, rfl⟩
  | ldi a b | add a b | sub a b | mul a b | div a b | mod a b | cmp a b | and a b | or a b | xor a b | shl a b
  | shr a b => exact ⟨a, b, [p, q], rfl, rfl⟩

end

/-- Settles O24: the encoding's first byte selects the mnemonic on an injective map, and its operands are the next. -/
theorem decodeOfEncodeIsIdentity : Obligations.DecodeOfEncodeIsIdentity := by
  intro m i p q hm
  obtain ⟨a, b, rest, hbytes, hi⟩ := encode_append_pair m i p q
  rw [hbytes, decodeBytes, decode_byte hm, hi]

/-- Settles O25: the mnemonic found has the opcode byte, on an injective map or not. -/
theorem encodeOfDecodeIsPrefix : Obligations.EncodeOfDecodeIsPrefix := by
  intro m op a b i h
  obtain ⟨n, hn, rfl⟩ := decode_eq_ok.1 h
  rw [encode_ofBytes, width_ofBytes, byte_of_lookup hn]

/-- Settles O26: the decoded instruction's mnemonic is the one whose byte was found. -/
theorem wholeOpcodeByteSelectsInstruction : Obligations.WholeOpcodeByteSelectsInstruction := by
  refine fun m op a b n hm => ⟨fun h => h ▸ decode_byte hm n a b, fun h => ?_⟩
  obtain ⟨k, hk, hki⟩ := decode_eq_ok.1 h
  have hkn : k = n := by simpa using congrArg Instr.mnemonic hki
  exact byte_of_lookup (hkn ▸ hk)

/-- Settles O27: a lookup fails exactly on the bytes that are no opcode; the default map's are counted. -/
theorem unknownOpcodesAreAllOthers : Obligations.UnknownOpcodesAreAllOthers :=
  ⟨fun _ _ _ _ => lookup_eq_none.symm.trans decode_eq_error.symm, by decide +kernel, by decide⟩

/-- Settles O28: the default table row by row, and the length of an encoding for any map. -/
theorem defaultOpcodesAndWidths : Obligations.DefaultOpcodesAndWidths :=
  ⟨by decide, rfl, rfl, fun n => ⟨mem_mnemonicAll n, by cases n <;> rfl⟩, encode_length⟩

/-- Settles O29: the five words decoded. -/
theorem writtenWordsDecode : Obligations.WrittenWordsDecode := ⟨rfl, rfl, rfl, rfl, rfl⟩

/-! ## Register operands (30_encoding.md R72) -/

/-- The stops an ALU operation raises are about values, never about the registers' names. -/
theorem aluOp_ne_badRegister {p : Params} {n : Mnemonic} {op : Int → Int → Except AbortKind Int}
    (hop : aluOp p n = some op) (va vb : Int) : op va vb ≠ .error .badRegister := by
  cases n with cases hop
  | add | sub | mul | and | or | xor => exact nofun
  | div | mod =>
    simp only [aluDiv, aluMod]
    split
    · exact nofun
    · split <;> exact nofun
  | shl | shr =>
    simp only [aluShl, aluShr]
    split <;> exact nofun

/-- BAD_REGISTER is raised by an ill-formed instruction only. -/
theorem State.Raises.wf_eq_false {s : State} {i : Instr} (h : s.Raises i .badRegister) : i.wf = false := by
  cases h with
  | badRegister hwf => exact hwf
  | alu hop hk => exact absurd hk (aluOp_ne_badRegister hop _ _)

/-- An instruction that leaves a running core Aborted has raised that stop. -/
theorem State.Executes.raises_of_aborted {s t : State} {i : Instr} {k : AbortKind} {pc : Int} (h : s.Executes i t)
    (hs : s.run = .running) (ht : t.run = .aborted k pc) : s.Raises i k := by
  cases h with
  | stop hk => cases ht; exact hk
  | hlt => cases ht
  | _ => exact absurd (hs.symm.trans ht) nofun

/-- Settles O37: an ill-formed instruction stops before its rule, and no rule raises BAD_REGISTER. -/
theorem badRegisterExactlyWhenIllFormed : Obligations.BadRegisterExactlyWhenIllFormed := fun _ s hs =>
  ⟨fun h => ((exec_eq_next_iff.1 h).raises_of_aborted hs rfl).wf_eq_false, fun h => exec_badRegister h s⟩

end Sys2Proof.Machine
end

section
/-! The proofs of the statements of 30_encoding.md about text: an image text's bytes do not depend on its blank and
comment-only lines (R82, R83), and an instruction's assembler text is read back as the instruction (R81). -/

namespace Sys2Proof.Machine

/-! ## White space -/

theorem trim_eq_nil_of_blank {t : List Char} (h : t.all isBlank = true) : trim t = [] := by
  have hdrop : t.dropWhile isBlank = [] := List.dropWhile_eq_nil_iff.2 (List.all_eq_true.1 h)
  rw [trim, hdrop]
  rfl

theorem trim_cons_blank {c : Char} (h : isBlank c = true) (t : List Char) : trim (c :: t) = trim t := by
  rw [trim, List.dropWhile_cons_of_pos h, trim]

/-- No character of ASCII code above 32 is white space. -/
theorem isBlank_eq_false {c : Char} (h : 32 < c.toNat) : isBlank c = false := by
  have hne (d : Char) (hd : d.toNat ≤ 32) : (c == d) = false :=
    beq_eq_false_iff_ne.2 fun hcd => absurd (hcd ▸ h) (by omega)
  rw [isBlank, hne ' ' (by decide), hne '\t' (by decide), hne '\r' (by decide)]
  rfl

/-- A text of one or more characters, none of them white space. -/
def IsToken (t : List Char) : Prop := t ≠ [] ∧ ∀ c ∈ t, isBlank c = false

theorem IsToken.dropWhile_append {w : List Char} (hw : IsToken w) (u : List Char) :
    (w ++ u).dropWhile isBlank = w ++ u := by
  obtain ⟨hne, hblank⟩ := hw
  cases w with
  | nil => exact absurd rfl hne
  | cons c w => exact List.dropWhile_cons_of_neg (by simp [hblank c])

theorem IsToken.reverse {w : List Char} (hw : IsToken w) : IsToken w.reverse :=
  ⟨by simpa using hw.1, fun c hc => hw.2 c (List.mem_reverse.1 hc)⟩

/-- A text that begins and ends with a token has nothing to trim. -/
theorem trim_eq_self {t w u u' v : List Char} (hbegin : t = w ++ u) (hend : t = u' ++ v) (hw : IsToken w)
    (hv : IsToken v) : trim t = t := by
  have hleft : t.dropWhile isBlank = t := by rw [hbegin, hw.dropWhile_append]
  have hright : t.reverse.dropWhile isBlank = t.reverse := by
    rw [hend, List.reverse_append, hv.reverse.dropWhile_append]
  rw [trim, hleft, hright, List.reverse_reverse]

theorem IsToken.trim_eq {t : List Char} (ht : IsToken t) : trim t = t :=
  trim_eq_self (List.append_nil t).symm (List.nil_append t).symm ht ht

theorem IsToken.takeWhile_append {w : List Char} (hw : IsToken w) (u : List Char) :
    (w ++ u).takeWhile (! isBlank ·) = w ++ u.takeWhile (! isBlank ·) :=
  List.takeWhile_append_of_pos fun c hc => by simp [hw.2 c hc]

theorem IsToken.dropWhile_not_append {w : List Char} (hw : IsToken w) (u : List Char) :
    (w ++ u).dropWhile (! isBlank ·) = u.dropWhile (! isBlank ·) :=
  List.dropWhile_append_of_pos fun c hc => by simp [hw.2 c hc]

/-! ## Image text (30_encoding.md R82, R83) -/

theorem parseImageLine_blank {line : List Char} (h : (line.takeWhile (· != '#')).all isBlank = true) :
    parseImageLine line = some [] := by
  rw [parseImageLine, trim_eq_nil_of_blank h]

theorem parseImageLines_skip_blank {line : List Char} (h : (line.takeWhile (· != '#')).all isBlank = true)
    (before after : List (List Char)) :
    parseImageLines (before ++ line :: after) = parseImageLines (before ++ after) := by
  induction before with
  | nil => simp [parseImageLines, parseImageLine_blank h]
  | cons l before ih => simp [parseImageLines, ih]

/-- A binary digit as a character. -/
def binaryDigit (bit : Bool) : Char := if bit then '1' else '0'

theorem binaryValue_binaryDigit (acc : Nat) (bit : Bool) (rest : List Char) :
    binaryValue acc (binaryDigit bit :: rest) = binaryValue (2 * acc + bit.toNat) rest := by
  cases bit <;> rfl

/-- Reading bits k - 1 down to 0 of v after the bits from k up completes v. -/
theorem binaryValue_testBit (v k : Nat) :
    binaryValue (v >>> k) ((List.range k).reverse.map fun j => binaryDigit (v.testBit j)) = some v := by
  induction k with
  | zero => rfl
  | succ k ih =>
    have hbit : 2 * (v >>> (k + 1)) + (v.testBit k).toNat = v >>> k := by
      rw [Nat.toNat_testBit, Nat.shiftRight_succ, Nat.shiftRight_eq_div_pow]
      omega
    rw [List.range_succ, List.reverse_concat, List.map_cons, binaryValue_binaryDigit, hbit, ih]

theorem imageLine_eq (b : Byte) :
    imageLine b = (List.range 8).reverse.map fun j => binaryDigit (b.toNat.testBit j) := rfl

theorem binaryValue_imageLine (b : Byte) : binaryValue 0 (imageLine b) = some b.toNat := by
  have hzero : b.toNat >>> 8 = 0 := by
    have := b.isLt
    omega
  rw [imageLine_eq, ← binaryValue_testBit b.toNat 8, hzero]

theorem eq_zero_or_one_of_mem_imageLine {b : Byte} {c : Char} (h : c ∈ imageLine b) : c = '0' ∨ c = '1' := by
  obtain ⟨k, -, rfl⟩ := List.mem_map.1 h
  cases b.getLsbD k
  · exact .inl rfl
  · exact .inr rfl

theorem isToken_imageLine (b : Byte) : IsToken (imageLine b) := by
  refine ⟨by simp [imageLine], fun c hc => ?_⟩
  rcases eq_zero_or_one_of_mem_imageLine hc with rfl | rfl <;> rfl

/-- A line that is a byte's eight digits before its comment is that byte. -/
theorem parseImageLine_of_imageLine {b : Byte} {line : List Char} (h : line.takeWhile (· != '#') = imageLine b) :
    parseImageLine line = some [b.toNat] := by
  rw [parseImageLine, h, (isToken_imageLine b).trim_eq]
  exact congrArg (Option.map ([·])) (binaryValue_imageLine b)

theorem imageLine_takeWhile_append (b : Byte) (u : List Char) :
    (imageLine b ++ u).takeWhile (· != '#') = imageLine b ++ u.takeWhile (· != '#') := by
  refine List.takeWhile_append_of_pos fun c hc => ?_
  rcases eq_zero_or_one_of_mem_imageLine hc with rfl | rfl <;> rfl

/-- Settles O56: a blank line contributes no byte, and eight digits contribute the byte they spell. -/
theorem imageTextSkipsCommentsAndBlanks : Obligations.ImageTextSkipsCommentsAndBlanks :=
  ⟨fun before after _ h => parseImageLines_skip_blank h before after, fun b comment =>
    ⟨parseImageLine_of_imageLine (by simp [imageLine_takeWhile_append]),
      parseImageLine_of_imageLine (by simpa using imageLine_takeWhile_append b [])⟩⟩

/-! ## Operand texts (30_encoding.md R73, R81) -/

theorem digitChar_toNat (n : Nat) : (digitChar n).toNat = 48 + n % 10 := by
  have h : ∀ k < 10, (Char.ofNat (48 + k)).toNat = 48 + k := by decide
  exact h _ (Nat.mod_lt n (by decide))

theorem decimalValue_digitChar (acc n : Nat) (rest : List Char) :
    decimalValue acc (digitChar n :: rest) = decimalValue (10 * acc + n % 10) rest := by
  have h : 48 ≤ (digitChar n).toNat ∧ (digitChar n).toNat ≤ 57 := by rw [digitChar_toNat]; omega
  rw [decimalValue, if_pos h, digitChar_toNat, Nat.add_sub_cancel_left]

theorem decimalValue_nil (acc : Nat) : decimalValue acc [] = some acc := rfl

/-- A byte has one, two or three decimal digits. -/
theorem decimalText_cases (b : Byte) :
    (b.toNat < 10 ∧ decimalText b = [digitChar b.toNat]) ∨
    (b.toNat < 100 ∧ decimalText b = [digitChar (b.toNat / 10), digitChar b.toNat]) ∨
    decimalText b = [digitChar (b.toNat / 100), digitChar (b.toNat / 10), digitChar b.toNat] := by
  by_cases h1 : b.toNat < 10
  · exact .inl ⟨h1, if_pos h1⟩
  · by_cases h2 : b.toNat < 100
    · exact .inr (.inl ⟨h2, (if_neg h1).trans (if_pos h2)⟩)
    · exact .inr (.inr ((if_neg h1).trans (if_neg h2)))

theorem decimalValue_decimalText (b : Byte) : decimalValue 0 (decimalText b) = some b.toNat := by
  have hb := b.isLt
  rcases decimalText_cases b with ⟨hlt, h⟩ | ⟨hlt, h⟩ | h <;> rw [h] <;>
    simp only [decimalValue_digitChar, decimalValue_nil, Option.some.injEq] <;> omega

theorem decimalText_ne_nil (b : Byte) : decimalText b ≠ [] := by
  rcases decimalText_cases b with ⟨-, h⟩ | ⟨-, h⟩ | h <;> simp [h]

theorem le_toNat_of_mem_decimalText (b : Byte) : ∀ c ∈ decimalText b, 48 ≤ c.toNat := by
  rcases decimalText_cases b with ⟨-, h⟩ | ⟨-, h⟩ | h <;> simp [h, digitChar_toNat]

theorem parseImmediate_decimalText (b : Byte) : parseImmediate (decimalText b) = some b := by
  simp [parseImmediate, decimalText_ne_nil, decimalValue_decimalText, b.isLt]

theorem parseRegister_registerText {a : Byte} (h : namesRegister a = true) :
    parseRegister (registerText a) = some a := by
  rcases reg_cases a with ⟨-, r, rfl, -⟩ | ⟨ha, -⟩
  · clear h
    revert r
    decide
  · rw [namesRegister_eq_false.2 ha] at h
    cases h

/-- The text of one operand: a token in which the separator does not occur. -/
def IsOperandText (w : List Char) : Prop := IsToken w ∧ ',' ∉ w

/-- The digits and letters lie above the white space and the comma. -/
theorem isOperandText_of_le_toNat {w : List Char} (hne : w ≠ []) (h : ∀ c ∈ w, 48 ≤ c.toNat) : IsOperandText w :=
  ⟨⟨hne, fun c hc => isBlank_eq_false (Nat.lt_of_lt_of_le (by decide) (h c hc))⟩,
    fun hc => absurd (h _ hc) (by decide)⟩

theorem isOperandText_decimalText (b : Byte) : IsOperandText (decimalText b) :=
  isOperandText_of_le_toNat (decimalText_ne_nil b) (le_toNat_of_mem_decimalText b)

theorem isOperandText_registerText (r : Byte) : IsOperandText (registerText r) :=
  isOperandText_of_le_toNat (List.cons_ne_nil _ _)
    (List.forall_mem_cons.2 ⟨by decide, le_toNat_of_mem_decimalText r⟩)

theorem isOperandText_of_mem_operandsText (i : Instr) :
    ∀ w ∈ operandsText i.mnemonic.format i.operands, IsOperandText w := by
  cases i with
  | hlt | ret => exact List.forall_mem_nil _
  | push a | pop a | prn a | call a | not a => exact List.forall_mem_singleton.2 (isOperandText_registerText a)
  | ldi a imm =>
    exact List.forall_mem_cons.2
      ⟨isOperandText_registerText a, List.forall_mem_singleton.2 (isOperandText_decimalText imm)⟩
  | add a b | sub a b | mul a b | div a b | mod a b | cmp a b | and a b | or a b | xor a b | shl a b | shr a b =>
    exact List.forall_mem_cons.2
      ⟨isOperandText_registerText a, List.forall_mem_singleton.2 (isOperandText_registerText b)⟩

/-- The operand texts of a well-formed instruction give its operand bytes back. -/
theorem parseOperands_operandsText {i : Instr} (h : i.wf = true) : ∃ a b,
    parseOperands i.mnemonic.format (operandsText i.mnemonic.format i.operands) = some (a, b) ∧
      Instr.ofBytes i.mnemonic a b = i := by
  cases i with
  | hlt | ret => exact ⟨0, 0, rfl, rfl⟩
  | push a | pop a | prn a | call a | not a =>
    refine ⟨a, 0, ?_, rfl⟩
    simp [parseOperands, operandsText, Instr.mnemonic, Mnemonic.format, Instr.operands, parseRegister_registerText h]
  | ldi a imm =>
    refine ⟨a, imm, ?_, rfl⟩
    simp [parseOperands, operandsText, Instr.mnemonic, Mnemonic.format, Instr.operands, parseRegister_registerText h,
      parseImmediate_decimalText]
  | add a b | sub a b | mul a b | div a b | mod a b | cmp a b | and a b | or a b | xor a b | shl a b | shr a b =>
    obtain ⟨ha, hb⟩ := Bool.and_eq_true_iff.1 h
    refine ⟨a, b, ?_, rfl⟩
    simp [parseOperands, operandsText, Instr.mnemonic, Mnemonic.format, Instr.operands, parseRegister_registerText ha,
      parseRegister_registerText hb]

/-! ## Joining and splitting at commas -/

theorem splitOn_of_not_mem {c : Char} {w : List Char} (h : c ∉ w) : splitOn c w = [w] := by
  induction w with
  | nil => rfl
  | cons d w ih =>
    obtain ⟨hd, hw⟩ := not_or.1 (List.mem_cons.not.1 h)
    rw [splitOn, if_neg (Ne.symm hd), ih hw]

theorem splitOn_append_cons {c : Char} {w : List Char} (h : c ∉ w) (t : List Char) :
    splitOn c (w ++ c :: t) = w :: splitOn c t := by
  induction w with
  | nil => rw [List.nil_append, splitOn, if_pos rfl]
  | cons d w ih =>
    obtain ⟨hd, hw⟩ := not_or.1 (List.mem_cons.not.1 h)
    rw [List.cons_append, splitOn, if_neg (Ne.symm hd), ih hw]

theorem splitOn_joinComma {ws : List (List Char)} (hne : ws ≠ []) (h : ∀ w ∈ ws, ',' ∉ w) :
    splitOn ',' (joinComma ws) = ws := by
  fun_induction joinComma ws with
  | case1 => exact absurd rfl hne
  | case2 w => exact splitOn_of_not_mem (h w (List.mem_singleton_self w))
  | case3 w ws hws ih =>
    obtain ⟨hw, hrest⟩ := List.forall_mem_cons.1 h
    rw [splitOn_append_cons hw, ih hws hrest]

theorem isToken_joinComma {ws : List (List Char)} (hne : ws ≠ []) (h : ∀ w ∈ ws, IsToken w) :
    IsToken (joinComma ws) := by
  fun_induction joinComma ws with
  | case1 => exact absurd rfl hne
  | case2 w => exact h w (List.mem_singleton_self w)
  | case3 w ws hws ih =>
    obtain ⟨⟨-, hw⟩, hrest⟩ := List.forall_mem_cons.1 h
    refine ⟨by simp, List.forall_mem_append.2 ⟨hw, List.forall_mem_cons.2 ⟨rfl, (ih hws hrest).2⟩⟩⟩

/-! ## Assembler text (30_encoding.md R81) -/

theorem isToken_text (n : Mnemonic) : IsToken (Mnemonic.text n) := by
  cases n <;> simp [IsToken, Mnemonic.text, isBlank]

theorem nodup_text : (Mnemonic.all.map Mnemonic.text).Nodup := by decide

theorem find?_text (n : Mnemonic) : (Mnemonic.all.find? fun k => Mnemonic.text k == Mnemonic.text n) = some n :=
  find?_mnemonic nodup_text n

/-- The bare mnemonic is read with no operand. -/
theorem parseAsm_text {n : Mnemonic} {a b : Byte} (h : parseOperands n.format [] = some (a, b)) :
    parseAsm (Mnemonic.text n) = some (Instr.ofBytes n a b) := by
  have hn := isToken_text n
  have hname := hn.takeWhile_append []
  have hrest := hn.dropWhile_not_append []
  rw [List.append_nil] at hname hrest
  have hnil : trim [] = [] := rfl
  simp [parseAsm, hn.trim_eq, hname, hrest, hnil, find?_text, h]

/-- Mnemonic, space and operands joined by commas are read as the mnemonic with these operands. -/
theorem parseAsm_text_operands {n : Mnemonic} {a b : Byte} {ws : List (List Char)} (hne : ws ≠ [])
    (hws : ∀ w ∈ ws, IsOperandText w) (h : parseOperands n.format ws = some (a, b)) :
    parseAsm (Mnemonic.text n ++ ' ' :: joinComma ws) = some (Instr.ofBytes n a b) := by
  have hn := isToken_text n
  have hjoin : IsToken (joinComma ws) := isToken_joinComma hne fun w hw => (hws w hw).1
  have htrim := trim_eq_self (t := Mnemonic.text n ++ ' ' :: joinComma ws) rfl
    (List.append_cons _ ' ' (joinComma ws)) hn hjoin
  have hname : (Mnemonic.text n ++ ' ' :: joinComma ws).takeWhile (! isBlank ·) = Mnemonic.text n :=
    (hn.takeWhile_append _).trans (List.append_nil _)
  have hrest : trim ((Mnemonic.text n ++ ' ' :: joinComma ws).dropWhile (! isBlank ·)) = joinComma ws := by
    rw [hn.dropWhile_not_append]
    exact (trim_cons_blank rfl _).trans hjoin.trim_eq
  have hsplit : (splitOn ',' (joinComma ws)).map trim = ws := by
    rw [splitOn_joinComma hne fun w hw => (hws w hw).2]
    exact (List.map_congr_left fun w hw => (hws w hw).1.trim_eq).trans (List.map_id' ws)
  simp [parseAsm, htrim, hname, hrest, hsplit, hjoin.1, find?_text, h]

/-- Settles O57: each part of the text, the mnemonic and the operands, is read back as what was written. -/
theorem assemblerTextNamesInstruction : Obligations.AssemblerTextNamesInstruction := by
  intro i hi
  obtain ⟨a, b, hops, hab⟩ := parseOperands_operandsText hi
  have hws := isOperandText_of_mem_operandsText i
  rw [asmText]
  generalize operandsText i.mnemonic.format i.operands = ws at hops hws ⊢
  cases ws with
  | nil => exact (parseAsm_text hops).trans (congrArg some hab)
  | cons w ws => exact (parseAsm_text_operands (List.cons_ne_nil w ws) hws hops).trans (congrArg some hab)

end Sys2Proof.Machine
end

section
/-! The proofs of the statements of 40_alu.md: what each ALU instruction writes or which stop it raises, with everything
it leaves unchanged, and that all but quotients, remainders and right shifts depend on the operands' 8-bit patterns
alone (R114). -/

namespace Sys2Proof.Machine

/-! ## Effect and frame, once for every instruction that writes one register (40_alu.md R100) -/

theorem writesRegister_of_exec {i : Instr} {s : State} {a : Fin 8} {v width : Int}
    (h : exec i s = .next ((s.setReg a v).advance width)) : WritesRegister i width a v s :=
  ⟨_, h, setReg_reg_self s a v, rfl, fun _ hq => setReg_reg_ne s v (List.ne_of_not_mem_cons hq),
    ⟨rfl, rfl, rfl, rfl⟩, fun _ => rfl⟩

section
variable {s : State} (n : Mnemonic) {op : Int → Int → Except AbortKind Int} (hop : aluOp s.params n = some op)
  {a b : Fin 8}
include hop

theorem writesRegister_alu {v : Int} (hv : op (s.reg a) (s.reg b) = .ok v) :
    WritesRegister (Instr.ofBytes n (regByte a) (regByte b)) 3 a v s :=
  writesRegister_of_exec (State.Executes.alu hop hv).exec_eq

theorem stopsWith_alu {k : AbortKind} (hk : op (s.reg a) (s.reg b) = .error k) :
    StopsWith (Instr.ofBytes n (regByte a) (regByte b)) k s :=
  (State.Raises.alu hop hk).exec_eq

end

/-! ## The check of register bytes (30_encoding.md R72) -/

theorem checksRegister_of_wf {i : Byte → Instr} (hwf : ∀ a, (i a).wf = namesRegister a) : ChecksRegister i :=
  fun s a ha => exec_badRegister ((hwf a).trans (namesRegister_eq_false.2 ha)) s

theorem checksRegisters_of_wf {i : Byte → Byte → Instr}
    (hwf : ∀ a b, (i a b).wf = (namesRegister a && namesRegister b)) : ChecksRegisters i := by
  intro s a b hab
  refine exec_badRegister ?_ s
  rw [hwf, Bool.and_eq_false_iff, namesRegister_eq_false, namesRegister_eq_false]
  exact hab

/-! ## The operations on values, case by case -/

section
variable {va vb : Int}

theorem aluDiv_of_eq_zero (mode : DivMode) (h : vb = 0) : aluDiv mode va vb = .error .divideByZero := if_pos h

theorem aluDiv_floor (h : vb ≠ 0) : aluDiv .floor va vb = .ok (mask (Int.fdiv va vb)) := if_neg h

theorem aluDiv_trunc (h : vb ≠ 0) : aluDiv .trunc va vb = .ok (mask (Int.tdiv va vb)) := if_neg h

theorem aluDiv_abort (h : vb ≠ 0) : aluDiv .abort va vb = .error .divUndefined := if_neg h

theorem aluMod_of_eq_zero (mode : MaskMode) (h : vb = 0) : aluMod mode va vb = .error .divideByZero := if_pos h

theorem aluMod_fixed (h : vb ≠ 0) : aluMod .fixed va vb = .ok (mask (Int.fmod va vb)) := by
  rw [aluMod, if_neg h, floormod_eq_fmod]

theorem aluMod_compat (h : vb ≠ 0) : aluMod .compat va vb = .ok (Int.fmod va vb) := by
  rw [aluMod, if_neg h, floormod_eq_fmod]

theorem aluShl_of_nonneg (h : 0 ≤ vb) : aluShl va vb = .ok (mask (shiftLeft va vb.toNat)) := if_neg h.not_gt

theorem aluShl_of_neg (h : vb < 0) : aluShl va vb = .error .negativeShift := if_pos h

theorem shiftRight_eq_ediv (p : Int) (n : Nat) : shiftRight p n = p / 2 ^ n :=
  Int.fdiv_eq_ediv_of_nonneg p (Int.pow_nonneg (by decide))

theorem aluShr_of_nonneg (h : 0 ≤ vb) : aluShr va vb = .ok (mask (va / 2 ^ vb.toNat)) := by
  rw [aluShr, if_neg h.not_gt, shiftRight_eq_ediv]

theorem aluShr_of_neg (h : vb < 0) : aluShr va vb = .error .negativeShift := if_pos h

end

/-! ## Results that depend on the operands' 8-bit patterns alone (40_alu.md R114) -/

/-- Masking keeps the 8-bit pattern. -/
@[simp] theorem ofInt_mask (v : Int) : BitVec.ofInt 8 (mask v) = BitVec.ofInt 8 v := by
  rw [mask_eq_zext8, ofInt_zext8]

theorem aluShl_eq_zext8 (va : Int) {vb : Int} (h : 0 ≤ vb) :
    aluShl va vb = .ok (zext8 (BitVec.ofInt 8 va <<< vb.toNat)) := by
  rw [aluShl_of_nonneg h, mask_eq_zext8, ofInt_shiftLeft]

/-- Settles O4: the masked result of a bitwise operation is the unsigned reading of the patterns' result. -/
theorem andOrXorStoreBytePatternResult : Obligations.AndOrXorStoreBytePatternResult := by
  refine ⟨rfl, rfl, rfl, fun s a b => ⟨?_, ?_, ?_⟩, checksRegisters_of_wf fun _ _ => rfl,
    checksRegisters_of_wf fun _ _ => rfl, checksRegisters_of_wf fun _ _ => rfl⟩
  · rw [← aluAnd_eq_zext8]
    exact writesRegister_of_exec (exec_and s a b)
  · rw [← aluOr_eq_zext8]
    exact writesRegister_of_exec (exec_or s a b)
  · rw [← aluXor_eq_zext8]
    exact writesRegister_of_exec (exec_xor s a b)

/-- Settles O22: each result is written as a function of the 8-bit patterns, and masking an operand keeps its
pattern. -/
theorem aluDependsOnlyOnBytePatterns : Obligations.AluDependsOnlyOnBytePatterns := by
  refine fun va vb => ⟨?_, ?_, ?_, ?_, ?_, ?_, fun hvb => ?_⟩
  · simp only [aluAdd_eq_zext8, ofInt_mask]
  · simp only [aluSub_eq_zext8, ofInt_mask]
  · simp only [aluMul_eq_zext8, ofInt_mask]
  · simp only [aluAnd_eq_zext8, ofInt_mask]
  · simp only [aluOr_eq_zext8, ofInt_mask]
  · simp only [aluXor_eq_zext8, ofInt_mask]
  · simp only [aluShl_eq_zext8 _ hvb, ofInt_mask]

/-! ## Arithmetic (40_alu.md R101 to R105) -/

/-- Settles O1: the three instructions always complete, with the masked result. -/
theorem addSubMulStoreResultModulo256 : Obligations.AddSubMulStoreResultModulo256 :=
  ⟨rfl, rfl, rfl,
    fun s a b => ⟨writesRegister_of_exec (exec_add s a b), writesRegister_of_exec (exec_sub s a b),
      writesRegister_of_exec (exec_mul s a b)⟩,
    checksRegisters_of_wf fun _ _ => rfl, checksRegisters_of_wf fun _ _ => rfl, checksRegisters_of_wf fun _ _ => rfl⟩

/-- Settles O2: the cases of DIV on values, the zero divisor first. -/
theorem divFollowsDivMode : Obligations.DivFollowsDivMode := by
  refine ⟨rfl, fun s a b => ⟨fun h0 => ?_, fun h0 => ⟨fun hmode => ?_, fun hmode => ?_, fun hmode => ?_⟩⟩,
    checksRegisters_of_wf fun _ _ => rfl⟩
  · exact stopsWith_alu .div rfl (aluDiv_of_eq_zero _ h0)
  · exact writesRegister_alu .div rfl (hmode ▸ aluDiv_floor h0)
  · exact writesRegister_alu .div rfl (hmode ▸ aluDiv_trunc h0)
  · exact stopsWith_alu .div rfl (hmode ▸ aluDiv_abort h0)

/-- Settles O3: the cases of MOD on values; the model's remainder is the library's `Int.fmod`. -/
theorem modStoresFloorRemainder : Obligations.ModStoresFloorRemainder := by
  refine ⟨rfl, fun s a b => ⟨fun h0 => ?_, fun h0 => ⟨fun hmode => ?_, fun hmode => ?_⟩⟩,
    checksRegisters_of_wf fun _ _ => rfl⟩
  · exact stopsWith_alu .mod rfl (aluMod_of_eq_zero _ h0)
  · exact writesRegister_alu .mod rfl (hmode ▸ aluMod_fixed h0)
  · exact writesRegister_alu .mod rfl (hmode ▸ aluMod_compat h0)

/-! ## Complement and shifts (40_alu.md R109 to R111) -/

/-- Settles O5: NOT always completes; the mode decides whether its result is masked. -/
theorem notStoresComplement : Obligations.NotStoresComplement := by
  refine ⟨rfl, fun s a => ?_, checksRegister_of_wf fun _ => rfl⟩
  have h := writesRegister_of_exec (exec_not s a)
  exact ⟨fun hmode => by rwa [hmode] at h, fun hmode => by rwa [hmode] at h⟩

/-- Settles O6: the two cases of SHL on values. -/
theorem shlShiftsByWholeCount : Obligations.ShlShiftsByWholeCount :=
  ⟨rfl, fun _ _ _ => ⟨fun h => writesRegister_alu .shl rfl (aluShl_of_nonneg h),
    fun h => stopsWith_alu .shl rfl (aluShl_of_neg h)⟩, checksRegisters_of_wf fun _ _ => rfl⟩

/-- Settles O7: the two cases of SHR on values; a floor by a power of two is the integer quotient. -/
theorem shrShiftsByWholeCount : Obligations.ShrShiftsByWholeCount :=
  ⟨rfl, fun _ _ _ => ⟨fun h => writesRegister_alu .shr rfl (aluShr_of_nonneg h),
    fun h => stopsWith_alu .shr rfl (aluShr_of_neg h)⟩, checksRegisters_of_wf fun _ _ => rfl⟩

/-! ## Comparison (40_alu.md R112) -/

section
variable {va vb : Int} (fl : FlagBits)

theorem compareFlags_of_eq (h : va = vb) : compareFlags va vb fl = 0b001 := by
  rw [compareFlags_eq, if_pos h]

theorem compareFlags_of_gt (h : va > vb) : compareFlags va vb fl = 0b010 := by
  rw [compareFlags_eq, if_neg h.ne', if_pos h]

theorem compareFlags_of_lt (h : va < vb) : compareFlags va vb fl = 0b100 := by
  rw [compareFlags_eq, if_neg h.ne, if_neg h.not_gt]

end

/-- Settles O8: CMP always completes and writes FL alone, by the order of the two values. -/
theorem cmpOverwritesAllFlags : Obligations.CmpOverwritesAllFlags :=
  ⟨rfl, fun s a b => ⟨_, exec_cmp s a b, compareFlags_of_eq s.fl, compareFlags_of_gt s.fl, compareFlags_of_lt s.fl,
    rfl, fun _ _ => rfl, fun _ => rfl, rfl, rfl, rfl⟩, checksRegisters_of_wf fun _ _ => rfl⟩

end Sys2Proof.Machine
end

section
/-! The proofs of the statements of 41_handlers.md: what each handler instruction writes, with everything it leaves
unchanged, and what PUSH with POP and CALL with RET do together (R149). -/

namespace Sys2Proof.Machine

/-! ## Immediate, output and halt (41_handlers.md R141 to R143) -/

/-- Settles O9: LDI always completes, and a byte's unsigned reading is the number it stores. -/
theorem ldiLoadsUnsignedImmediate : Obligations.LdiLoadsUnsignedImmediate :=
  ⟨rfl, fun s a imm => writesRegister_of_exec (exec_ldi s a imm),
    fun imm => checksRegister_of_wf (i := (.ldi · imm)) fun _ => rfl⟩

/-- Settles O10: PRN always completes, and emits without any other write. -/
theorem prnAppendsRegister : Obligations.PrnAppendsRegister :=
  ⟨rfl, fun s a => ⟨_, exec_prn s a, rfl, rfl, fun _ _ => rfl, fun _ => rfl, rfl, rfl, rfl⟩,
    checksRegister_of_wf fun _ => rfl⟩

/-- Settles O11: HLT sets the run state alone. -/
theorem hltChangesOnlyRunState : Obligations.HltChangesOnlyRunState := ⟨rfl, exec_hlt⟩

/-! ## PUSH and CALL (41_handlers.md R144, R146)

Both push a byte and then set pc; they differ in the byte and in the new pc. -/

/-- An instruction that pushes a byte and sets pc: the byte is read back at the new SP, and nothing else changes. -/
theorem pushes_of_exec {i : Instr} {s : State} {v pc : Int} (hm : s.mem.wf) (h0 : 0 ≤ v) (h1 : v ≤ 255)
    (h : exec i s = .next ((s.pushed v).setPc pc)) :
    ∃ t, exec i s = .next t ∧ t.reg 7 = s.pushedSp ∧ memRead t.mem s.pushedSp = .ok (BitVec.ofInt 8 v) ∧
      SameMemoryBut s.pushedSp s t ∧ t.pc = pc ∧ RegsKept [7] s t ∧ RestKept s t :=
  ⟨_, h, setReg_reg_self s spIndex _, memRead_pushed_self hm h0 h1, sameMemoryBut_pushed h0 h1, rfl,
    fun _ hq => setReg_reg_ne s _ (List.ne_of_not_mem_cons hq), rfl, rfl, rfl, rfl⟩

/-- Settles O12: the value PUSH reads below SP is pushed if it is a byte, and stops it otherwise. -/
theorem pushStoresBelowStackPointer : Obligations.PushStoresBelowStackPointer := by
  refine ⟨rfl, ?_, checksRegister_of_wf fun _ => rfl⟩
  rintro s a _ _ hm rfl rfl
  exact ⟨fun ⟨h0, h1⟩ => pushes_of_exec hm h0 h1 (State.Executes.push h0 h1).exec_eq,
    fun hv => (State.Raises.push hv).exec_eq⟩

/-- Settles O14: a fetch address plus two is a byte, so the push of CALL completes. -/
theorem callPushesReturnAddress : Obligations.CallPushesReturnAddress := by
  refine ⟨rfl, ?_, checksRegister_of_wf fun _ => rfl⟩
  rintro s a _ hm h0 h1 rfl
  have hret0 : 0 ≤ s.pc + 2 := by omega
  have hret1 : s.pc + 2 ≤ 255 := by omega
  exact pushes_of_exec hm hret0 hret1 (State.Executes.call hret0 hret1).exec_eq

/-! ## POP and RET (41_handlers.md R145, R147) -/

/-- Settles O13: x[a] is written before SP is read again, so for R7 the popped value is incremented. -/
theorem popLoadsFromStackPointer : Obligations.PopLoadsFromStackPointer := by
  refine ⟨rfl, fun s a v hv => ⟨_, exec_pop_ok s a hv, fun ha => ⟨?_, ?_⟩, ?_, rfl, fun q hq => ?_,
    ⟨rfl, rfl, rfl, rfl⟩, fun _ => rfl⟩, fun s a hsp => exec_pop_error s a hsp, checksRegister_of_wf fun _ => rfl⟩
  · exact (setReg_reg_ne _ _ ha).trans (setReg_reg_self s a _)
  · refine (setReg_reg_self _ spIndex _).trans ?_
    rw [setReg_reg_ne s _ (show spIndex ≠ a from ha.symm)]
    rfl
  · rintro rfl
    refine (setReg_reg_self _ spIndex _).trans ?_
    rw [show spIndex = 7 from rfl, setReg_reg_self]
    rfl
  · obtain ⟨hqa, hq7⟩ := List.ne_and_not_mem_of_not_mem_cons hq
    exact (setReg_reg_ne _ _ (List.ne_of_not_mem_cons hq7)).trans (setReg_reg_ne s _ hqa)

/-- Settles O15: RET writes pc and SP. -/
theorem retPopsProgramCounter : Obligations.RetPopsProgramCounter :=
  ⟨rfl, fun s v hv => ⟨_, exec_ret_ok s hv, rfl, setReg_reg_self _ spIndex _,
    fun _ hq => setReg_reg_ne (s.setPc (zext8 v)) _ (List.ne_of_not_mem_cons hq), ⟨rfl, rfl, rfl, rfl⟩, fun _ => rfl⟩,
    fun s hsp => exec_ret_error s hsp⟩

/-! ## PUSH then POP, CALL then RET (41_handlers.md R149) -/

/-- Incrementing SP after a push gives the SP before it, modulo 256. -/
theorem pushedSp_add_one_emod (s : State) : (s.pushedSp + 1) % 256 = s.reg 7 % 256 := by
  show ((s.reg 7 - 1) % 256 + 1) % 256 = s.reg 7 % 256
  omega

/-- A PUSH that leaves the core running has pushed a byte. -/
theorem regBelow_byte_of_push_running {s t : State} {a : Fin 8} (h : exec (.push (regByte a)) s = .next t)
    (ht : t.run = .running) : 0 ≤ s.regBelow a ∧ s.regBelow a ≤ 255 := by
  by_contra hv
  rw [(State.Raises.push (by omega)).exec_eq] at h
  cases h
  cases ht

/-- Settles O16: what PUSH does and what POP does, put together; for R7 the pushed value is the decremented SP, which
POP increments again. -/
theorem pushPopRestoresRegisterAndStackPointer : Obligations.PushPopRestoresRegisterAndStackPointer := by
  intro s t a hm h0 h1 hpush ht
  obtain ⟨hv0, hv1⟩ := regBelow_byte_of_push_running hpush ht
  obtain ⟨-, hpushes, -⟩ := pushStoresBelowStackPointer
  obtain ⟨t', hpush', hsp, hcell, -⟩ := (hpushes s a s.pushedSp (s.regBelow a) hm rfl rfl).1 ⟨hv0, hv1⟩
  cases hpush.symm.trans hpush'
  rw [← hsp] at hcell
  obtain ⟨-, hpops, -⟩ := popLoadsFromStackPointer
  obtain ⟨u, hpop, hne, heq, -⟩ := hpops t a _ hcell
  have hback : ((BitVec.ofInt 8 (s.regBelow a)).toNat : Int) = s.regBelow a := zext8_ofInt hv0 hv1
  have hspBack : (s.pushedSp + 1) % 256 = s.reg 7 :=
    (pushedSp_add_one_emod s).trans (mask_of_byte h0 h1)
  refine ⟨u, hpop, ?_⟩
  by_cases ha : a = 7
  · subst ha
    have husp : u.reg 7 = s.reg 7 := by rw [heq rfl, hback]; exact hspBack
    exact ⟨husp, husp⟩
  · obtain ⟨hua, husp⟩ := hne ha
    exact ⟨hua.trans (hback.trans (if_neg ha)), by rw [husp, hsp, hspBack]⟩

/-- Settles O18: RET reads the return address back from the cell CALL pushed it to. -/
theorem callRetResumesAfterCall : Obligations.CallRetResumesAfterCall := by
  intro s a hm h0 h1
  obtain ⟨-, hcalls, -⟩ := callPushesReturnAddress
  obtain ⟨t, hcall, hsp, hcell, -⟩ := hcalls s a s.pushedSp hm h0 h1 rfl
  refine ⟨t, hcall, fun u husp hucell => ?_⟩
  rw [← hsp, ← hucell, ← husp] at hcell
  obtain ⟨-, hrets, -⟩ := retPopsProgramCounter
  obtain ⟨v, hret, hpc, hvsp, -⟩ := hrets u _ hcell
  have hback : ((BitVec.ofInt 8 (s.pc + 2)).toNat : Int) = s.pc + 2 := zext8_ofInt (by omega) (by omega)
  rw [husp, hsp, pushedSp_add_one_emod] at hvsp
  exact ⟨v, hret, hpc.trans hback, hvsp, fun hs0 hs1 => hvsp.trans (mask_of_byte hs0 hs1)⟩

/-! ### A negative SP in COMPAT (log entry 11) -/

/-- Reset in MASK_MODE = COMPAT with SP = -1. -/
def negativeSpReset : State := State.resetWith { resetParams with maskMode := .compat } (-1)

theorem negativeSpReset_inv : negativeSpReset.Inv where
  mem := ⟨.nil, nofun⟩
  regs := show ∀ r : Fin 8, -256 ≤ negativeSpReset.reg r ∧ negativeSpReset.reg r ≤ 255 by decide
  fl := .inl rfl
  pc := pcRange_of_le _ (by decide) (by decide)
  out := nofun
  opcodes := by decide

/-- Refutes O17: from SP = -1, PUSH R0 leaves SP = 254, and POP R0 then leaves SP = 255. -/
theorem not_pushPopRestoresAnyStackPointer : ¬ Obligations.PushPopRestoresAnyStackPointer := by
  intro h
  obtain ⟨u, hpop, -, hsp⟩ := h negativeSpReset _ 0 negativeSpReset_inv rfl rfl rfl
  have hback : u.reg 7 = 255 := by cases hpop; rfl
  have hstart : negativeSpReset.reg 7 = -1 := rfl
  rw [hback, hstart] at hsp
  exact absurd hsp (by decide)

end Sys2Proof.Machine
end

section
/-! The proofs of the statements of 42_execution_loop.md: what a step of a running core fetches and runs, that it always
answers a next state, how precisely it stops, and that the end of a run does not depend on the budget. -/

namespace Sys2Proof.Machine

/-! ## Fetch and decode (42_execution_loop.md R170 to R173) -/

theorem exists_fetched_bytes {s : State} (h0 : 0 ≤ s.pc) (h1 : s.pc ≤ 253) :
    ∃ op a b, memRead s.mem s.pc = .ok op ∧ memRead s.mem (s.pc + 1) = .ok a ∧ memRead s.mem (s.pc + 2) = .ok b :=
  ⟨_, _, _, memRead_in h0 (by omega), memRead_in (by omega) (by omega), memRead_in (by omega) (by omega)⟩

section
variable {s : State} {op a b : Byte} (hrun : s.run = .running) (hop : memRead s.mem s.pc = .ok op)
  (ha : memRead s.mem (s.pc + 1) = .ok a) (hb : memRead s.mem (s.pc + 2) = .ok b)
include hop ha hb

theorem fetchBytes_of_memRead : fetchBytes s = .ok (op, a, b) := by
  simp [fetchBytes, hop, ha, hb, bind, Except.bind, pure, Except.pure]

include hrun

theorem step_of_decode_ok {i : Instr} (hi : decode s.params.opcodes op a b = .ok i) : step s = exec i s :=
  step_of_instr (by simp [fetch, hrun, fetchRunning, fetchBytes_of_memRead hop ha hb, hi])

theorem step_of_decode_error {e : DecodeError} (he : decode s.params.opcodes op a b = .error e) :
    step s = .next (s.faultOn op) :=
  step_of_stopped (by simp [fetch, hrun, fetchRunning, fetchBytes_of_memRead hop ha hb, he])

end

/-- Settles O30: the bytes read are the bytes fetched. -/
theorem stepRunsDecodedInstruction : Obligations.StepRunsDecodedInstruction :=
  fun _ _ _ _ _ hrun hop ha hb hi => step_of_decode_ok hrun hop ha hb hi

/-- Settles O31: outside 0..253 the fetch stops; inside all three reads succeed, and the step follows their decoding. -/
theorem fetchNeedsThreeBytesInRange : Obligations.FetchNeedsThreeBytesInRange := by
  refine fun s hrun => ⟨fun hpc => step_of_stopped (fetch_out hrun hpc), fun ⟨h0, h1⟩ => ?_⟩
  obtain ⟨op, a, b, hop, ha, hb⟩ := exists_fetched_bytes h0 h1
  refine ⟨op, a, b, hop, ha, hb, ?_⟩
  cases hd : decode s.params.opcodes op a b with
  | ok i => exact step_of_decode_ok hrun hop ha hb hd
  | error e => exact step_of_decode_error hrun hop ha hb hd

/-- Settles O32: a byte that is no opcode decodes to nothing, whatever the two bytes after it are. -/
theorem unknownOpcodeFaultsPrecisely : Obligations.UnknownOpcodeFaultsPrecisely := by
  intro s op hrun h0 h1 hop hunknown
  obtain ⟨_, a, b, -, ha, hb⟩ := exists_fetched_bytes h0 h1
  exact step_of_decode_error hrun hop ha hb (decode_of_lookup_none (lookup_eq_none.2 hunknown))

/-! ## Every step is enabled while Running (42_execution_loop.md R179) -/

theorem exists_exec_eq_next (i : Instr) (s : State) : ∃ t, exec i s = .next t := by
  obtain ⟨a, b, hi⟩ := eq_ofBytes i
  obtain ⟨t, ht⟩ := executes_ofBytes s i.mnemonic a b
  exact ⟨t, hi ▸ ht.exec_eq⟩

/-- Settles O35: a fetch stop is a next state, and every instruction's rule answers one. -/
theorem runningCoreAlwaysSteps : Obligations.RunningCoreAlwaysSteps := by
  intro s hrun
  rcases step_cases hrun with ⟨-, hstep⟩ | ⟨-, -, ⟨_, -, -, hstep⟩ | ⟨i, -, hstep⟩⟩
  · exact ⟨_, hstep⟩
  · exact ⟨_, hstep⟩
  · rw [hstep]
    exact exists_exec_eq_next i s

/-! ## Fatal stops (42_execution_loop.md R176) -/

/-- An instruction that leaves a running core Aborted has made no other write. -/
theorem State.Executes.eq_abort {s t : State} {i : Instr} {k : AbortKind} {addr : Int} (h : s.Executes i t)
    (hs : s.run = .running) (ht : t.run = .aborted k addr) : t = s.abort k := by
  have hexec : exec i s = .next (s.abort k) := (h.raises_of_aborted hs ht).exec_eq
  rw [h.exec_eq] at hexec
  cases hexec
  rfl

theorem State.Steps.eq_abort {s t : State} {k : AbortKind} {addr : Int} (h : s.Steps t)
    (ht : t.run = .aborted k addr) : t = s.abort k := by
  cases h with
  | fetchOut => cases ht; rfl
  | unknown => cases ht
  | instr hrun _ _ _ hx => exact hx.eq_abort hrun ht

/-- Settles O36: the state an aborting step leaves is `s.abort kind`, whose run state names pc. -/
theorem fatalStopsArePrecise : Obligations.FatalStopsArePrecise := by
  intro s t kind addr _ hstep ht
  have htabort : t = s.abort kind := (step_eq_next_iff.1 hstep).eq_abort ht
  subst htabort
  cases ht
  exact ⟨rfl, rfl⟩

/-! ## The loop under a budget (42_execution_loop.md R174, R175) -/

theorem runLoop_of_ended {s : State} (h : s.Ended) (budget : Nat) : runLoop budget s = s := by
  cases budget with
  | zero => rfl
  | succ n => rw [runLoop, step_of_ended h]

theorem runLoop_succ_of_next {s t : State} (h : step s = .next t) (n : Nat) : runLoop (n + 1) s = runLoop n t := by
  rw [runLoop, h]

/-- A budget may be spent in two parts. -/
theorem runLoop_add (n k : Nat) (s : State) : runLoop (n + k) s = runLoop k (runLoop n s) := by
  induction n generalizing s with
  | zero => rw [Nat.zero_add, runLoop]
  | succ n ih =>
    by_cases hrun : s.run = .running
    · obtain ⟨t, hstep⟩ := runningCoreAlwaysSteps s hrun
      rw [Nat.succ_add, runLoop_succ_of_next hstep, runLoop_succ_of_next hstep, ih]
    · simp only [runLoop_of_ended hrun]

/-- Settles O33: only a running core fetches, so the loop makes no step. -/
theorem endedRunsAreFrozen : Obligations.EndedRunsAreFrozen := by
  intro s h
  have hstep : step s = .fault (.terminal s.run) := step_of_ended h
  exact ⟨hstep, by rw [hstep]; exact nofun, runLoop_of_ended h⟩

/-- Settles O34: the rest of the larger budget is spent in a state whose run has ended. -/
theorem largerBudgetsKeepTheEnd : Obligations.LargerBudgetsKeepTheEnd := by
  intro s n k h
  rw [runLoop_add, runLoop_of_ended h]

end Sys2Proof.Machine
end

section
/-! The proofs of the statements of 60_exceptions.md: which instruction raises which fatal stop, in which order the
checks are made, and which stops MASK_MODE = FIXED rules out. -/

namespace Sys2Proof.Machine

/-! ## The stops of the ALU operations on values (40_alu.md R104, R105, R110, R111) -/

section
variable {va vb : Int} {k : AbortKind}

theorem aluDiv_eq_error {mode : DivMode} (h : aluDiv mode va vb = .error k) :
    k = .divideByZero ∨ k = .divUndefined := by
  by_cases h0 : vb = 0
  · rw [aluDiv_of_eq_zero mode h0] at h; cases h; exact .inl rfl
  · cases mode with
    | floor => rw [aluDiv_floor h0] at h; cases h
    | trunc => rw [aluDiv_trunc h0] at h; cases h
    | abort => rw [aluDiv_abort h0] at h; cases h; exact .inr rfl

theorem aluMod_eq_error {mode : MaskMode} (h : aluMod mode va vb = .error k) : k = .divideByZero := by
  by_cases h0 : vb = 0
  · rw [aluMod_of_eq_zero mode h0] at h; cases h; rfl
  · cases mode with
    | fixed => rw [aluMod_fixed h0] at h; cases h
    | compat => rw [aluMod_compat h0] at h; cases h

theorem aluShl_eq_error (h : aluShl va vb = .error k) : k = .negativeShift ∧ vb < 0 := by
  by_cases hneg : vb < 0
  · rw [aluShl_of_neg hneg] at h; cases h; exact ⟨rfl, hneg⟩
  · rw [aluShl_of_nonneg (not_lt.1 hneg)] at h; cases h

theorem aluShr_eq_error (h : aluShr va vb = .error k) : k = .negativeShift ∧ vb < 0 := by
  by_cases hneg : vb < 0
  · rw [aluShr_of_neg hneg] at h; cases h; exact ⟨rfl, hneg⟩
  · rw [aluShr_of_nonneg (not_lt.1 hneg)] at h; cases h

/-- An ALU operation stops on a quotient or a remainder, or on a negative shift count, and no other way. -/
theorem aluOp_eq_error {p : Params} {n : Mnemonic} {op : Int → Int → Except AbortKind Int} (hop : aluOp p n = some op)
    (h : op va vb = .error k) :
    (k = .divideByZero ∧ (n = .div ∨ n = .mod)) ∨ (k = .divUndefined ∧ n = .div) ∨
      (k = .negativeShift ∧ (n = .shl ∨ n = .shr) ∧ vb < 0) := by
  cases n with cases hop
  | add | sub | mul | and | or | xor => cases h
  | div =>
    rcases aluDiv_eq_error h with rfl | rfl
    · exact .inl ⟨rfl, .inl rfl⟩
    · exact .inr (.inl ⟨rfl, rfl⟩)
  | mod => exact .inl ⟨aluMod_eq_error h, .inr rfl⟩
  | shl =>
    obtain ⟨rfl, hneg⟩ := aluShl_eq_error h
    exact .inr (.inr ⟨rfl, .inl rfl, hneg⟩)
  | shr =>
    obtain ⟨rfl, hneg⟩ := aluShr_eq_error h
    exact .inr (.inr ⟨rfl, .inr rfl, hneg⟩)

end

/-! ## Which instruction raises which stop (60_exceptions.md R201) -/

/-- HLT and RET have no register operand, so the register check is not theirs. -/
theorem mayRaise_badRegister_of_wf {i : Instr} (h : i.wf = false) : mayRaise .badRegister i.mnemonic := by
  cases i with
  | hlt | ret => cases h
  | _ => exact ⟨nofun, nofun⟩

/-- At a fetch address CALL's return address is a byte, so the table's rows are all an instruction can raise. -/
theorem State.Raises.mayRaise {s : State} {i : Instr} {k : AbortKind} (h : s.Raises i k) (h0 : 0 ≤ s.pc)
    (h1 : s.pc ≤ 253) : mayRaise k i.mnemonic := by
  cases h with
  | badRegister hwf => exact mayRaise_badRegister_of_wf hwf
  | alu hop hk =>
    rw [mnemonic_ofBytes]
    rcases aluOp_eq_error hop hk with ⟨rfl, hn⟩ | ⟨rfl, hn⟩ | ⟨rfl, hn, -⟩ <;> exact hn
  | push => exact rfl
  | pop => exact .inl rfl
  | call hpc => omega
  | ret => exact .inr rfl

/-- Settles O39: an instruction that leaves a running core Aborted has raised the stop by one of the rules. -/
theorem stopKindsAndTheirRaisers : Obligations.StopKindsAndTheirRaisers :=
  ⟨fun _ _ _ _ _ hrun h0 h1 h ht => ((exec_eq_next_iff.1 h).raises_of_aborted hrun ht).mayRaise h0 h1, rfl,
    fun _ _ => rfl, fun _ => rfl⟩

/-! ## The order of the checks (60_exceptions.md R204) -/

/-- A well-formed instruction leaves a running core in no state that reports BAD_REGISTER. -/
theorem State.Executes.run_ne_badRegister {s t : State} {i : Instr} (h : s.Executes i t) (hrun : s.run = .running)
    (hwf : i.wf = true) (addr : Int) : t.run ≠ .aborted .badRegister addr := by
  intro ht
  have hbad : i.wf = false := (h.raises_of_aborted hrun ht).wf_eq_false
  exact absurd (hwf.symm.trans hbad) nofun

/-- Settles O38: the fetch range, the opcode and the register bytes in turn, each check made only once those before it
have passed; in DIV's rule the zero divisor comes before DIV_MODE. -/
theorem stopChecksInPriorityOrder : Obligations.StopChecksInPriorityOrder := by
  refine fun s hrun => ⟨fun hpc => ?_, fun op h0 h1 hop hlookup => ?_, fun i hi hwf => ?_,
    fun i t addr hi hwf ht => ?_, fun a b hi hzero _ => ?_⟩
  · exact step_of_stopped (fetch_out hrun hpc)
  · exact unknownOpcodeFaultsPrecisely s op hrun h0 h1 hop (lookup_eq_none.1 hlookup)
  · exact (step_of_instr hi).trans (exec_badRegister hwf s)
  · rw [step_of_instr hi] at ht
    exact (exec_eq_next_iff.1 ht).run_ne_badRegister hrun hwf addr
  · exact (step_of_instr hi).trans (stopsWith_alu .div rfl (aluDiv_of_eq_zero _ hzero))

/-! ## MASK_MODE = FIXED (60_exceptions.md R201, 10_state.md R23) -/

section
variable {s : State} (h : s.Inv) (hfixed : s.params.maskMode = .fixed)
include h hfixed

theorem State.Inv.reg_byte_of_fixed (r : Fin 8) : 0 ≤ s.reg r ∧ s.reg r ≤ 255 := by
  have hr := h.regs r
  rwa [hfixed] at hr

theorem State.Inv.regBelow_byte_of_fixed (a : Fin 8) : 0 ≤ s.regBelow a ∧ s.regBelow a ≤ 255 := by
  have ha := h.regBelow a
  rwa [hfixed] at ha

theorem State.Inv.pc_nonneg_of_fixed : 0 ≤ s.pc := by
  have hpc := h.pc
  rw [hfixed] at hpc
  exact hpc.1

/-- In FIXED every register is a byte: a shift count is not negative, SP is an address, and the value pushed fits a
cell. -/
theorem State.Inv.ne_of_raises_of_fixed {i : Instr} {k : AbortKind} (h0 : 0 ≤ s.pc) (h1 : s.pc ≤ 253)
    (hk : s.Raises i k) :
    k ≠ .negativeShift ∧ k ≠ .cellRange ∧ k ≠ .addressOutOfRange := by
  have hsp := h.reg_byte_of_fixed hfixed 7
  cases hk with
  | badRegister => exact ⟨nofun, nofun, nofun⟩
  | @alu _ _ _ b _ hop hk =>
    have hb := h.reg_byte_of_fixed hfixed b
    rcases aluOp_eq_error hop hk with ⟨rfl, -⟩ | ⟨rfl, -⟩ | ⟨-, -, hneg⟩
    · exact ⟨nofun, nofun, nofun⟩
    · exact ⟨nofun, nofun, nofun⟩
    · omega
  | @push a hv =>
    have ha := h.regBelow_byte_of_fixed hfixed a
    omega
  | pop hout => omega
  | call hpc => omega
  | ret hout => omega

end

/-- Settles O40: a fetch stops only above 253, as pc is not negative, and an instruction raises none of the three. -/
theorem fixedModeStops : Obligations.FixedModeStops := by
  intro s t kind addr h hfixed hrun hstep ht
  cases step_eq_next_iff.1 hstep with
  | fetchOut _ hpc =>
    cases ht
    exact ⟨nofun, nofun, fun _ => hpc.resolve_left (h.pc_nonneg_of_fixed hfixed).not_gt⟩
  | unknown => cases ht
  | instr _ h0 h1 _ hx =>
    obtain ⟨hshift, hcell, haddr⟩ := h.ne_of_raises_of_fixed hfixed h0 h1 (hx.raises_of_aborted hrun ht)
    exact ⟨hshift, hcell, fun hk => absurd hk haddr⟩

end Sys2Proof.Machine
end

section
/-! The proof of the statement of 70_reset_and_hazards.md: the load port writes an accepted image from address 0 and
refuses any other. -/

namespace Sys2Proof.Machine

/-! ## A stored sequence, read through the primitive (20_memory.md R51) -/

section
variable {m : Memory} {addr k : Nat} {bytes : List Byte}

theorem memRead_storeBytes_at (hm : m.wf) (hk : k < bytes.length) (h : addr + bytes.length ≤ memSize) :
    memRead (storeBytes m addr bytes) (addr + k : Nat) = .ok bytes[k] := by
  have hle : addr + k ≤ 255 := Nat.le_of_lt_succ (by unfold memSize at h; omega)
  rw [memRead_in (Int.natCast_nonneg _) (Int.ofNat_le.2 hle), Int.toNat_natCast, read_storeBytes_at hm bytes hk h]

/-- Addresses above the stored ones read as before, one outside memory as the same stop. -/
theorem memRead_storeBytes_above (h : addr + bytes.length ≤ k) :
    memRead (storeBytes m addr bytes) k = memRead m k := by
  rw [memRead, memRead, Int.toNat_natCast, read_storeBytes_above bytes h]

end

/-! ## The images the load port accepts (70_reset_and_hazards.md R221) -/

section
variable {img : List Nat}

theorem imageAccepted_iff : imageAccepted img = true ↔ img.length ≤ imageMax ∧ ∀ v ∈ img, v < 256 := by
  simp [imageAccepted]

theorem load_accepted (s : State) (hlen : img.length ≤ 256) (hval : ∀ v ∈ img, v < 256) :
    s.load img = some (s.setMem (storeBytes s.mem 0 (img.map (BitVec.ofNat 8)))) :=
  if_pos (imageAccepted_iff.2 ⟨hlen, hval⟩)

theorem load_refused (s : State) (h : 256 < img.length ∨ ∃ v ∈ img, 256 ≤ v) : s.load img = none := by
  refine if_neg fun hacc => ?_
  obtain ⟨hlen, hval⟩ := imageAccepted_iff.1 hacc
  rcases h with hlong | ⟨v, hv, hbig⟩
  · exact hlong.not_ge hlen
  · exact hbig.not_gt (hval v hv)

end

/-- Settles O44: an accepted image replaces memory alone, by the image's bytes stored from address 0. -/
theorem loadWritesImageFromZero : Obligations.LoadWritesImageFromZero := by
  refine ⟨fun s img hm hlen hval => ?_, fun s _ => load_refused s⟩
  refine ⟨_, load_accepted s hlen hval, fun k hk => ?stored, fun k hk => ?above, fun _ _ => rfl, rfl,
    ⟨rfl, rfl, rfl, rfl⟩, fun hinv => hinv.setMem (storeBytes_wf hm 0 _)⟩
  case stored =>
    have hread := memRead_storeBytes_at (addr := 0) (bytes := img.map (BitVec.ofNat 8)) hm (by simpa using hk)
      (by simpa [memSize] using hlen)
    rwa [Nat.zero_add, List.getElem_map] at hread
  case above => exact memRead_storeBytes_above (by simpa using hk)

end Sys2Proof.Machine
end
